-- ==== Sys2Proof/Word.lean ====
section
/-!
DEFINITION. The word types: bytes of SAMPLE and OUT, 32-bit words of the register window and MSG_IN, and bit
sequences (spec/00_scope.md R7, R9).
-/

namespace Sys2Proof

/-- One byte: an entry of SAMPLE or OUT (spec/20_memory.md R50, R52). -/
abbrev Byte := BitVec 8

/-- One `LEN_WIDTH` = 32-bit word: a register slot or an MSG_IN entry (spec/00_scope.md R7). -/
abbrev Word := BitVec 32

/-- A bit sequence, its first bit first (spec/00_scope.md R9). -/
abbrev Bits := List Bool

end Sys2Proof
end

