-- ==== Sys2Proof/Syntax.lean ====
section
/-!
DEFINITION. The instructions: one constructor per row of spec/opcode_table.json. The four stream tokens are what the
scan reads from the LSB stream (spec/30_encoding.md R71); the three commands are what a write of CMD starts (R82).
-/

namespace Sys2Proof

/-- The instructions of the block. Payloads are held at the width the encoding gives them, so that the values with
no character (digits 10 to 15, offsets 26 to 31) are instructions too: they raise an error (R77). -/
inductive Instr where
  | term                    -- TERM  `11111111`, spec/43_character_decoder.md R180, R184
  | digit (d : BitVec 4)    -- DIGIT `0dddd`, R172, R176
  | upper (o : BitVec 5)    -- UPPER `10ooooo`, R173, R177
  | lower (o : BitVec 5)    -- LOWER `11ooooo`, R174, R177
  | embed                   -- EMBED 0x00000001, spec/44_transport_commands.md R200
  | extract                 -- EXTRACT 0x00000002, R204
  | illegal (v : Word)      -- every other CMD word, R207
  deriving DecidableEq, Repr

end Sys2Proof
end

