-- ==== Sys2Proof/WellFormed.lean ====
section
/-!
DEFINITION. Which instructions are well formed: the legal token values of spec/30_encoding.md R77, and for the illegal
command a word that names neither command (R82).
-/

namespace Sys2Proof

/-- The digit payloads that have a character (R77). -/
def digitLegal (d : BitVec 4) : Bool := d.toNat ≤ 9

/-- The letter offsets that have a character (R77). -/
def offsetLegal (o : BitVec 5) : Bool := o.toNat ≤ 25

/-- The command words that are neither EMBED nor EXTRACT (R82). -/
def wordIllegal (v : Word) : Bool := v.toNat ≠ 1 && v.toNat ≠ 2

/-- A well-formed instruction has a legal operand value (R77, R82). -/
def Instr.wf : Instr → Bool
  | .term => true
  | .digit d => digitLegal d
  | .upper o => offsetLegal o
  | .lower o => offsetLegal o
  | .embed => true
  | .extract => true
  | .illegal v => wordIllegal v

end Sys2Proof
end

