-- ==== Sys2Proof/Decode.lean ====
section
/-!
DEFINITION. The two decoders (stream tokens, spec/30_encoding.md R71 to R76; command words, R82) and the encoder beside
them, with the bit-sequence functions they use (spec/00_scope.md R10).
-/

namespace Sys2Proof

/-- `val(s)`: the unsigned value of a bit sequence, most significant bit first (spec/00_scope.md R10). -/
def valueOf (s : Bits) : Nat := s.foldl (fun acc b => 2 * acc + b.toNat) 0

/-- `bin_n(v)`: the `n`-bit sequence of `v`, most significant bit first (R10). -/
def bin : Nat → Nat → Bits
  | 0, _ => []
  | n + 1, v => v.testBit n :: bin n v

/-- The terminator `11111111` (R71). -/
def terminator : Bits := List.replicate 8 true

/-- What the encoder answers: a token's bits in the stream encoding, or a command word (spec/30_encoding.md). -/
inductive Code where
  | stream (bits : Bits)
  | command (word : Word)
  deriving DecidableEq, Repr

/-- What the decoder answers: an instruction and the bits after it, or why there is none. `exhausted`: no bit remains
(R76 case 2). `truncated`: the token at the boundary is wider than what remains (R76, R175). -/
inductive Decoded where
  | instr (i : Instr) (rest : Bits)
  | exhausted
  | truncated
  deriving DecidableEq, Repr

/-- The token at the start of a stream, in the order of R76: TERM first, then no bit left, then the marker `0`, then
the markers `10` and `11` (R71, R72, R75). -/
def decodeToken (b : Bits) : Decoded :=
  if b.take 8 = terminator then .instr .term (b.drop 8)
  else match b with
    | [] => .exhausted
    | false :: d3 :: d2 :: d1 :: d0 :: rest => .instr (.digit (BitVec.ofNat 4 (valueOf [d3, d2, d1, d0]))) rest
    | true :: false :: o4 :: o3 :: o2 :: o1 :: o0 :: rest =>
        .instr (.upper (BitVec.ofNat 5 (valueOf [o4, o3, o2, o1, o0]))) rest
    | true :: true :: o4 :: o3 :: o2 :: o1 :: o0 :: rest =>
        .instr (.lower (BitVec.ofNat 5 (valueOf [o4, o3, o2, o1, o0]))) rest
    | _ => .truncated

/-- The command of a CMD word, all 32 bits decoded (R82). -/
def decodeCommand (v : Word) : Instr :=
  if v = 0x00000001#32 then .embed else if v = 0x00000002#32 then .extract else .illegal v

/-- The decoder, total on both encodings; a command word is whole, so nothing stays after it (R83). -/
def decode : Code → Decoded
  | .stream b => decodeToken b
  | .command v => .instr (decodeCommand v) []

/-- The pattern of a token, marker first (R71, R73). A command has no pattern in the stream. -/
def tokenBits : Instr → Bits
  | .term => terminator
  | .digit d => false :: bin 4 d.toNat
  | .upper o => true :: false :: bin 5 o.toNat
  | .lower o => true :: true :: bin 5 o.toNat
  | .embed => []
  | .extract => []
  | .illegal _ => []

/-- The encoder, from the tables of R71 and R82. -/
def encode : Instr → Code
  | .term => .stream (tokenBits .term)
  | .digit d => .stream (tokenBits (.digit d))
  | .upper o => .stream (tokenBits (.upper o))
  | .lower o => .stream (tokenBits (.lower o))
  | .embed => .command 0x00000001#32
  | .extract => .command 0x00000002#32
  | .illegal v => .command v

/-- How many bits a code has (R71, R83). -/
def Code.width : Code → Nat
  | .stream b => b.length
  | .command _ => 32

/-- A code followed by more of the stream; a command word stands alone. -/
def Code.followedBy : Code → Bits → Code
  | .stream b, rest => .stream (b ++ rest)
  | .command v, _ => .command v

/-- The instruction of a decoder's answer, if there is one. -/
def Decoded.instr? : Decoded → Option Instr
  | .instr i _ => some i
  | .exhausted => none
  | .truncated => none

/-- The instruction of an opcode-table word. A row of at most 8 bits is the 8-bit window W of the stream, stream bit j
being W's bit 7 - j (spec/opcode_table.json); a wider one is a CMD word. -/
def decodeTableWord (nbits w : Nat) : Option Instr :=
  if nbits ≤ 8 then (decode (.stream (bin 8 w))).instr? else (decode (.command (BitVec.ofNat 32 w))).instr?

end Sys2Proof
end

