-- ==== Sys2Proof/Config.lean ====
section
/-!
DEFINITION. What an implementation fixes (the OPEN parameters of spec/00_scope.md R7) and the free values (what the
spec leaves unspecified, spec/93_implementation_defined.md U1, U2). Every opaque constant here has no body: no proof can
learn a value of it.
-/

namespace Sys2Proof

/-- The four windows of the address map (spec/20_memory.md R63). -/
inductive Window where
  | registers
  | sample
  | message
  | output
  deriving DecidableEq, Repr

/-- MAX_BUF with its constraint `MAX_BUF <= 2^32 - 1` (R7). DESIGN CHOICE, log 3; safe. -/
opaque Config.sampleCapacity : Fin 4294967296

/-- MAX_MSG with its constraint `7*MAX_MSG + 8 <= 2^32 - 1`, that is `MAX_MSG <= 613566755` (R7). DESIGN CHOICE,
log 3; safe. -/
opaque Config.messageCapacity : Fin 613566756

/-- What MAX_OUT has beyond its least value `floor(MAX_BUF / 5)` (R7). DESIGN CHOICE, log 3; safe. -/
opaque Config.outputSlack : Nat

/-- MAX_BUF, the capacity of SAMPLE in bytes (R7). -/
def Config.maxBuf : Nat := Config.sampleCapacity.val

/-- MAX_MSG, the capacity of MSG_IN in characters (R7). -/
def Config.maxMsg : Nat := Config.messageCapacity.val

/-- MAX_OUT, the capacity of OUT in characters (R7). -/
def Config.maxOut : Nat := Config.maxBuf / 5 + Config.outputSlack

/-- The windows of the address map, all four. -/
def Window.all : List Window := [.registers, .sample, .message, .output]

/-- The size of a window in bytes: 16 slots of 4 bytes, MAX_BUF, 4*MAX_MSG, MAX_OUT (R63). -/
def Config.size : Window → Nat
  | .registers => 64
  | .sample => Config.maxBuf
  | .message => 4 * Config.maxMsg
  | .output => Config.maxOut

/-- A placement of the windows in which no two of them have a byte address in common (R63). -/
abbrev Config.Apart (base : Window → Nat) : Prop :=
  ∀ v ∈ Window.all, ∀ w ∈ Window.all, v ≠ w →
    ∀ i < Config.size v, ∀ j < Config.size w, base v + i ≠ base w + j

/-- Where the platform would place the windows, with no constraint yet (R63). DESIGN CHOICE, log 4; safe. -/
opaque Config.placement : Window → Nat

/-- The windows one after the other from 0: what `Config.base` falls back on where the free placement overlaps. -/
def Config.stacked : Window → Nat
  | .registers => 0
  | .sample => Config.size .registers
  | .message => Config.size .registers + Config.size .sample
  | .output => Config.size .registers + Config.size .sample + Config.size .message

/-- REG_BASE, SAMPLE_BASE, MSG_BASE and OUT_BASE (R7, R63): any placement in which the windows do not overlap.
DESIGN CHOICE, log 4; safe. -/
def Config.base (w : Window) : Nat :=
  if Config.Apart Config.placement then Config.placement w else Config.stacked w

/-- FREE VALUE: what SAMPLE[i] holds at power-up (U1). DESIGN CHOICE, log 1; safe. -/
opaque Config.samplePowerUp : Nat → Byte

/-- FREE VALUE: what MSG_IN[k] holds at power-up (U1). DESIGN CHOICE, log 1; safe. -/
opaque Config.messagePowerUp : Nat → Word

/-- FREE VALUE: what an entry of OUT with no specified value reads as: the first argument is the epoch (one per
command start or reset), the second the index (U2). DESIGN CHOICE, log 2; safe. -/
opaque Config.unspecifiedOut : Nat → Nat → Byte

end Sys2Proof
end

