-- ==== Sys2Proof/Machine/State.lean ====
section
/-!
DEFINITION. The state of the block (spec/10_state.md R21) as plain data, the host agent beside it (R20), the reasons
a step can stop, and the state after reset (spec/70_reset_and_hazards.md R260).
-/

namespace Sys2Proof.Machine

/-- STATUS.STATE, bits 1:0 of slot 1 (spec/10_state.md R25). -/
inductive CoreState where
  | idle
  | busy
  | done
  | error
  deriving DecidableEq, Repr

/-- PHASE (R34). -/
inductive Phase where
  | idle
  | embSer
  | embChk
  | embWr
  | extScan
  deriving DecidableEq, Repr

/-- The error codes of spec/60_exceptions.md R231; the reserved code 7 is never raised, so it has no name here. -/
inductive ErrCode where
  | noError
  | unsupportedCharacter
  | capacityExceeded
  | invalidDigitValue
  | corruptStream
  | terminatorNotFound
  | illegalCommand
  deriving DecidableEq, Repr

/-- A memory: the written locations with their values, addresses strictly rising. A location that is not listed has no
value of its own: nothing has written it since power-up (log 1). -/
abbrev Memory (w : Nat) := List (Nat × BitVec w)

/-- A host access, by window and byte offset (spec/20_memory.md R59, R63). -/
inductive Access where
  | read8 (w : Window) (offset : Nat)
  | write8 (w : Window) (offset : Nat) (v : Byte)
  | read32 (w : Window) (offset : Nat)
  | write32 (w : Window) (offset : Nat) (v : Word)
  deriving DecidableEq, Repr

/-- One operation of a host program (spec/30_encoding.md R85). `wait` lets the core take one sequencer step, `reset` is
a reset at that moment (spec/70_reset_and_hazards.md R260). -/
inductive HostOp where
  | access (a : Access)
  | poll
  | wait
  | reset
  deriving DecidableEq, Repr

/-- What one host read returned (R42). -/
inductive HostData where
  | word (v : Word)
  | byte (v : Byte)
  deriving DecidableEq, Repr

/-- The state: R21's tuple in its order, then the host agent and the model's own counter. -/
structure State where
  /-- STATUS.STATE (R25) -/
  state : CoreState
  /-- ERR_CODE (R26) -/
  errCode : ErrCode
  /-- ERR_INFO (R27) -/
  errInfo : Word
  /-- BUF_LEN (R28) -/
  bufLen : Word
  /-- MSG_LEN (R29) -/
  msgLen : Word
  /-- BITS_LEN (R30) -/
  bitsLen : Word
  /-- OUT_LEN (R31) -/
  outLen : Word
  /-- SAMPLE (spec/20_memory.md R50) -/
  sample : List Host.Cell
  /-- MSG_IN, 32-bit entries by index (R51) -/
  msgIn : Memory 32
  /-- OUT (R52) -/
  out : List Host.Cell
  /-- PHASE (R34) -/
  phase : Phase
  /-- POS (R35) -/
  pos : Nat
  /-- K (R36) -/
  k : Nat
  /-- BITS (R37) -/
  bits : Bits
  /-- WIDX (R38) -/
  widx : Nat
  /-- the host's operations still to come, the next one first (R20, R85; log 6) -/
  hostProgram : List HostOp
  /-- what the host has read, the latest first (R42; log 6) -/
  received : List HostData
  /-- command starts and resets so far; the argument of the free value of OUT (U2; log 2) -/
  epoch : Nat
  deriving DecidableEq, Repr

/-- Why the machine stops with a fault. -/
inductive Fault where
  /-- Raised by a host access beyond its window: a slot above 15, an index at or above MAX_BUF, MAX_MSG or MAX_OUT
  (spec/20_memory.md R59, U4: refuse). Safe: the spec gives the access no effect. -/
  | noSuchLocation
  deriving DecidableEq, Repr

/-- Why a step has no meaning. -/
inductive Refusal where
  /-- Raised by an arm of exec whose instruction has no meaning yet; no arm is in this case. Safe. -/
  | notModelled (mnemonic : String)
  /-- Raised by EMBED, EXTRACT and ILLEGAL while STATE = BUSY: CMD is written only while STATE is not BUSY
  (spec/10_state.md R24, R33, U4: refuse). Safe. -/
  | commandWhileBusy
  /-- Raised by a host access other than a STATUS read while STATE = BUSY (R33, spec/70_reset_and_hazards.md R264,
  U4: refuse). Safe. -/
  | hostAccessWhileBusy
  /-- Raised by a host access form outside spec/20_memory.md R59: sub-word, misaligned, or a write to OUT (U4: refuse).
  Safe. -/
  | accessForm
  /-- Raised by a host write of BUF_LEN above MAX_BUF or MSG_LEN above MAX_MSG (spec/70_reset_and_hazards.md R266, U4:
  refuse). Safe. -/
  | lengthAboveCapacity
  /-- Raised by a stream token outside P_EXT_SCAN: only the scan reads tokens (spec/43_character_decoder.md R179;
  log 11). Safe. -/
  | tokenOutsideScan
  deriving DecidableEq, Repr

/-- The state after power-up and reset (spec/70_reset_and_hazards.md R260): every register and hidden element at the
value that rule gives, memories with nothing listed (log 1), no host program loaded (log 6). -/
def State.reset : State where
  state := .idle
  errCode := .noError
  errInfo := 0#32
  bufLen := 0#32
  msgLen := 0#32
  bitsLen := 0#32
  outLen := 0#32
  sample := []
  msgIn := []
  out := []
  phase := .idle
  pos := 0
  k := 0
  bits := []
  widx := 0
  hostProgram := []
  received := []
  epoch := 0

/-- What the next step does: execute one instruction on a state, or an outcome with no instruction in it. -/
inductive Move where
  | run (i : Instr) (s : State)
  | settled (o : Host.Outcome State Fault Refusal)
  deriving Repr

end Sys2Proof.Machine
end

