-- ==== Sys2Proof/Machine/Ops.lean ====
section
/-!
DEFINITION. The named operations over memories and registers: reading and writing a memory in its canonical form, the
start of a command, success, and the one way an error ends a command (spec/60_exceptions.md R240).
-/

namespace Sys2Proof.Machine

/-- Reading a list memory: the value of a written location, none for one that nothing has written. -/
def Memory.get? {w : Nat} : Memory w → Nat → Option (BitVec w)
  | [], _ => none
  | (b, x) :: m, a => if a = b then some x else Memory.get? m a

/-- Writing a location, keeping addresses strictly rising. -/
def Memory.set {w : Nat} : Memory w → Nat → BitVec w → Memory w
  | [], a, v => [(a, v)]
  | (b, x) :: m, a, v =>
    if a < b then (a, v) :: (b, x) :: m
    else if a = b then (a, v) :: m
    else (b, x) :: Memory.set m a v

/-- The canonical form: addresses strictly rising. No entry can equal what an unlisted address has, since that is no
value. -/
abbrev Memory.wf {w : Nat} (m : Memory w) : Prop := (m.map Prod.fst).Pairwise (· < ·)

/-- The byte `SAMPLE[i]` (spec/20_memory.md R50); before the first write it is a free value (U1, log 1). -/
def State.sampleByte (s : State) (i : Nat) : Byte :=
  (Memory.get? s.sample i).getD (Config.samplePowerUp i)

/-- The write of `SAMPLE[i]`. -/
def State.setSample (s : State) (i : Nat) (v : Byte) : State :=
  { s with sample := Memory.set s.sample i v }

/-- The entry `MSG_IN[k]` (R51); before the first write it is a free value (U1, log 1). -/
def State.msgEntry (s : State) (k : Nat) : Word :=
  (Memory.get? s.msgIn k).getD (Config.messagePowerUp k)

/-- The write of `MSG_IN[k]`, by the host alone. -/
def State.setMsg (s : State) (k : Nat) (v : Word) : State :=
  { s with msgIn := Memory.set s.msgIn k v }

/-- The write of `OUT[k]`, by EXTRACT alone (R52). -/
def State.setOut (s : State) (k : Nat) (v : Byte) : State :=
  { s with out := Memory.set s.out k v }

/-- `OUT[k]` as the host reads it: a recovered character below OUT_LEN, an unspecified value elsewhere (R52, U2,
log 2). -/
def State.outByte (s : State) (k : Nat) : Byte :=
  if k < s.outLen.toNat then (Memory.get? s.out k).getD (Config.unspecifiedOut s.epoch k)
  else Config.unspecifiedOut s.epoch k

/-- `raise E(info)`: the error entry of spec/60_exceptions.md R240, the same for every error. -/
def State.raise (s : State) (e : ErrCode) (info : Word) : State :=
  { s with
    state := .error
    errCode := e
    errInfo := info
    bitsLen := 0#32
    outLen := 0#32
    phase := .idle }

/-- `finish_ok`: the command ends in the DONE state (spec/44_transport_commands.md R202). -/
def State.finishOk (s : State) : State :=
  { s with state := .done, phase := .idle }

/-- `start()` (R201), with the phase of the command that starts. There is no return from an error other than this and
the illegal command (spec/60_exceptions.md R242). -/
def State.start (s : State) (p : Phase) : State :=
  { s with
    state := .busy
    errCode := .noError
    errInfo := 0#32
    bitsLen := 0#32
    outLen := 0#32
    k := 0
    pos := 0
    widx := 0
    bits := []
    phase := p
    epoch := s.epoch + 1 }

/-- A reset at any moment (spec/70_reset_and_hazards.md R260, R261): every register and hidden element at its reset
value, the memories as they were. The host goes on with its program. -/
def State.applyReset (s : State) : State :=
  { State.reset with
    sample := s.sample
    msgIn := s.msgIn
    out := s.out
    hostProgram := s.hostProgram
    received := s.received
    epoch := s.epoch + 1 }

/-- The host takes one read value (spec/10_state.md R42). -/
def State.receive (s : State) (d : HostData) : State :=
  { s with received := d :: s.received }

end Sys2Proof.Machine
end

