-- ==== Sys2Proof/Machine/Operands.lean ====
section
/-!
DEFINITION. The operand forms: the bit a sample byte carries, the window of the LSB stream at the scan position, and
the host's access forms (spec/20_memory.md R54 to R59).
-/

namespace Sys2Proof.Machine

/-- `lsb(v) = v & 0x01`: bit 0, the bit of weight 1 (spec/20_memory.md R56). -/
def lsbOf (v : Byte) : Bool := v.getLsbD 0

/-- `(v & 0xFE) | zext_8(b)` (spec/41_lsb_packer.md R132). -/
def mergeLsb (v : Byte) (b : Bool) : Byte := (v &&& 0xFE#8) ||| (BitVec.ofBool b).setWidth 8

/-- `s[p .. p+n)` of a bit stream given by its bits (spec/00_scope.md R9). -/
def slice (b : Nat → Bool) (p n : Nat) : Bits := (List.range n).map (fun j => b (p + j))

/-- `R = L - p`, the bits that remain at the scan position (spec/30_encoding.md R76). -/
def State.remaining (s : State) : Nat := s.bufLen.toNat - s.pos

/-- A host access form that spec/20_memory.md R59 makes legal, with the index it reaches. -/
inductive AccessForm where
  | readSlot (n : Nat)
  | writeSlot (n : Nat) (v : Word)
  | readSample (i : Nat)
  | writeSample (i : Nat) (v : Byte)
  | readMsg (k : Nat)
  | writeMsg (k : Nat) (v : Word)
  | readOut (k : Nat)
  deriving DecidableEq, Repr

/-- What an access is: a legal form, a form outside R59, or an index beyond its window. -/
inductive AccessKind where
  | form (f : AccessForm)
  | badForm
  | beyond
  deriving DecidableEq, Repr

/-- A 32-bit access at a byte offset: the entry it reaches, below a bound on the entries (R23, R51, R59). -/
def wordForm (offset bound : Nat) (f : Nat → AccessForm) : AccessKind :=
  if offset % 4 ≠ 0 then .badForm else if offset / 4 < bound then .form (f (offset / 4)) else .beyond

/-- An 8-bit access: the byte it reaches, below a bound (R50, R52, R59). -/
def byteForm (offset bound : Nat) (f : Nat → AccessForm) : AccessKind :=
  if offset < bound then .form (f offset) else .beyond

/-- The access forms of R59. -/
def Access.kind : Access → AccessKind
  | .read32 .registers off => wordForm off 16 .readSlot
  | .write32 .registers off v => wordForm off 16 (.writeSlot · v)
  | .read32 .message off => wordForm off Config.maxMsg .readMsg
  | .write32 .message off v => wordForm off Config.maxMsg (.writeMsg · v)
  | .read8 .sample off => byteForm off Config.maxBuf .readSample
  | .write8 .sample off v => byteForm off Config.maxBuf (.writeSample · v)
  | .read8 .output off => byteForm off Config.maxOut .readOut
  | .read32 .sample _ => .badForm
  | .write32 .sample _ _ => .badForm
  | .read32 .output _ => .badForm
  | .write32 .output _ _ => .badForm
  | .read8 .registers _ => .badForm
  | .write8 .registers _ _ => .badForm
  | .read8 .message _ => .badForm
  | .write8 .message _ _ => .badForm
  | .write8 .output _ _ => .badForm

/-- The window an access names (spec/20_memory.md R63). -/
def Access.window : Access → Window
  | .read8 w _ => w
  | .write8 w _ _ => w
  | .read32 w _ => w
  | .write32 w _ _ => w

/-- The byte offset of an access in its window. -/
def Access.offset : Access → Nat
  | .read8 _ off => off
  | .write8 _ off _ => off
  | .read32 _ off => off
  | .write32 _ off _ => off

/-- How many bytes an access takes (R59). -/
def Access.bytes : Access → Nat
  | .read8 _ _ => 1
  | .write8 _ _ _ => 1
  | .read32 _ _ => 4
  | .write32 _ _ _ => 4

/-- The host bus address of an access: its window's base and its offset, so slot n is at REG_BASE + 4*n and byte i of
SAMPLE at SAMPLE_BASE + i (spec/10_state.md R23, spec/20_memory.md R50 to R52, R63; log 4). -/
def Access.address (a : Access) : Nat := Config.base a.window + a.offset

end Sys2Proof.Machine
end

