-- ==== Sys2Proof/Machine/LsbExtractor.lean ====
section
/-!
DEFINITION. EXTR, the LSB-to-bitstream extractor (spec/42_lsb_extractor.md).
-/

namespace Sys2Proof.Machine

/-- `LSB_BIT(i)`: `b[i] := MemRead(i, 1) & 0x01` (spec/42_lsb_extractor.md R151). -/
def State.lsbBit (s : State) (i : Nat) : Bool := lsbOf (s.sampleByte i)

/-- The LSB stream: one bit per byte of `SAMPLE[0 .. L-1]`, in index order (R152). -/
def State.lsbStream (s : State) : Bits := slice s.lsbBit 0 s.bufLen.toNat

/-- The at most 8 bits of the stream at the scan position, read on demand (R154, spec/43_character_decoder.md R180). -/
def State.scanWindow (s : State) : Bits := slice s.lsbBit s.pos (min 8 s.remaining)

end Sys2Proof.Machine
end

