-- ==== Sys2Proof/Machine/CharacterDecoder.lean ====
section
/-!
DEFINITION. VLCD, the variable-length character decoder (spec/43_character_decoder.md): DEC_CHAR and SCAN as the spec
writes them, and the meaning of each stream token as one step of the scan.
-/

namespace Sys2Proof.Machine

/-- The character of a digit value, if it has one (R172, R176). -/
def digitChar (d : Nat) : Option Byte := if d ≤ 9 then some (BitVec.ofNat 8 (0x30 + d)) else none

/-- The character of a letter offset from the first letter of its class, if it has one (R173, R174, R177). -/
def letterChar (first o : Nat) : Option Byte := if o ≤ 25 then some (BitVec.ofNat 8 (first + o)) else none

/-- What DEC_CHAR answers (R170). -/
inductive CharDecoded where
  | char (c : Byte) (w : Nat)
  | truncated
  | invalidDigit
  | corrupt
  deriving DecidableEq, Repr

/-- `DEC_CHAR(b, p, L)` (R171). -/
def decChar (b : Nat → Bool) (p l : Nat) : CharDecoded :=
  match b p with
  | false =>
    if l - p < 5 then .truncated
    else match digitChar (valueOf (slice b (p + 1) 4)) with
      | some c => .char c 5
      | none => .invalidDigit
  | true =>
    if l - p < 7 then .truncated
    else match letterChar (if b (p + 1) then 0x61 else 0x41) (valueOf (slice b (p + 2) 5)) with
      | some c => .char c 7
      | none => .corrupt

/-- How SCAN ends: the characters decoded so far, and the boundary it ended at (R182 to R184). -/
inductive Scanned where
  | done (chars : List Byte) (p : Nat)
  | failed (e : ErrCode) (chars : List Byte) (p : Nat)
  deriving DecidableEq, Repr

/-- The loop of EXTRACT (spec/44_transport_commands.md R204) from boundary `p` with the characters so far. The first
argument bounds the decode steps; `scan` gives it more than the `floor(L/5)` that can happen (R185). -/
def scanFrom (b : Nat → Bool) (l : Nat) : (fuel p : Nat) → List Byte → Scanned
  | 0, p, chars => .failed .terminatorNotFound chars p
  | fuel + 1, p, chars =>
    if 8 ≤ l - p ∧ slice b p 8 = terminator then .done chars p
    else if p = l then .failed .terminatorNotFound chars p
    else match decChar b p l with
      | .char c w => scanFrom b l fuel (p + w) (chars ++ [c])
      | .truncated => .failed .terminatorNotFound chars p
      | .invalidDigit => .failed .invalidDigitValue chars p
      | .corrupt => .failed .corruptStream chars p

/-- SCAN over an `l`-bit stream (R179 to R184). -/
def scan (b : Nat → Bool) (l : Nat) : Scanned := scanFrom b l (l + 1) 0 []

/-- The decode step's writes: `OUT[K] <- c`, `K <- K + 1`, `POS <- p + w` (R181). -/
def State.emit (s : State) (c : Byte) (w : Nat) : State :=
  { s.setOut s.k c with k := s.k + 1, pos := s.pos + w }

/-- An error of the scan at its boundary: ERR_INFO is POS (R182, R183). -/
def State.scanError (s : State) (e : ErrCode) : State := s.raise e (BitVec.ofNat 32 s.pos)

/-- The end of the scan at a terminator: OUT_LEN is K, BITS_LEN is p + 8 (R184). -/
def State.scanDone (s : State) : State :=
  { s with outLen := BitVec.ofNat 32 s.k, bitsLen := BitVec.ofNat 32 (s.pos + 8) }.finishOk

/-- The scan step of a character token of width `w`: cut off by the end of the stream (R175, R182), without a
character (R183), or decoded (R181). -/
def decodeStep (w : Nat) (char : Option Byte) (bad : ErrCode) (s : State) : Host.Outcome State Fault Refusal :=
  if s.phase ≠ .extScan then .refused .tokenOutsideScan
  else if s.remaining < w then .next (s.scanError .terminatorNotFound)
  else match char with
    | some c => .next (s.emit c w)
    | none => .next (s.scanError bad)

/-- DIGIT (R172, R175, R176). -/
def execDigit (d : BitVec 4) (s : State) : Host.Outcome State Fault Refusal :=
  decodeStep 5 (digitChar d.toNat) .invalidDigitValue s

/-- UPPER (R173, R175, R177). -/
def execUpper (o : BitVec 5) (s : State) : Host.Outcome State Fault Refusal :=
  decodeStep 7 (letterChar 0x41 o.toNat) .corruptStream s

/-- LOWER (R174, R175, R177). -/
def execLower (o : BitVec 5) (s : State) : Host.Outcome State Fault Refusal :=
  decodeStep 7 (letterChar 0x61 o.toNat) .corruptStream s

/-- TERM: the end of the message (R180, R184). With fewer than 8 bits left the test fails and the ones that remain are
decoded as R171 says: seven are LOWER 31, which is corrupt, fewer are cut off (R175, R177, R182). -/
def execTerm (s : State) : Host.Outcome State Fault Refusal :=
  if s.phase ≠ .extScan then .refused .tokenOutsideScan
  else if 8 ≤ s.remaining then .next s.scanDone
  else if s.remaining = 7 then .next (s.scanError .corruptStream)
  else .next (s.scanError .terminatorNotFound)

end Sys2Proof.Machine
end

