-- ==== Sys2Proof/Machine/CharacterEncoder.lean ====
section
/-!
DEFINITION. VLCE, the variable-length character encoder (spec/40_character_encoder.md), and EMBED's serialisation
phase (spec/44_transport_commands.md R201).
-/

namespace Sys2Proof.Machine

/-- The four character classes (spec/30_encoding.md R70). -/
inductive CharClass where
  | digit
  | upper
  | lower
  | unsupported
  deriving DecidableEq, Repr

/-- The class of a code point, by the ranges of R70. -/
def classify (c : Word) : CharClass :=
  if 0x30 ≤ c.toNat ∧ c.toNat ≤ 0x39 then .digit
  else if 0x41 ≤ c.toNat ∧ c.toNat ≤ 0x5A then .upper
  else if 0x61 ≤ c.toNat ∧ c.toNat ≤ 0x7A then .lower
  else .unsupported

/-- The token of a supported code point: its class, and its distance from the first character of the class (R73). -/
def tokenOf (c : Word) : Option Instr :=
  match classify c with
  | .digit => some (.digit (BitVec.ofNat 4 (c.toNat - 0x30)))
  | .upper => some (.upper (BitVec.ofNat 5 (c.toNat - 0x41)))
  | .lower => some (.lower (BitVec.ofNat 5 (c.toNat - 0x61)))
  | .unsupported => none

/-- `ENC_CHAR(c)`: the pattern of 5 or 7 bits, or none for an unsupported character (spec/40_character_encoder.md R101
to R105). -/
def encChar (c : Word) : Option Bits := (tokenOf c).map tokenBits

/-- What SERIALIZE answers (R100). -/
inductive Serialized where
  | ok (bits : Bits)
  | unsupported (k : Nat)
  deriving DecidableEq, Repr

/-- SERIALIZE from character `k` on, with `n` characters left and the patterns so far (R106). -/
def serializeFrom (msg : Nat → Word) : (n k : Nat) → Bits → Serialized
  | 0, _, acc => .ok (acc ++ terminator)
  | n + 1, k, acc =>
    match encChar (msg k) with
    | some p => serializeFrom msg n (k + 1) (acc ++ p)
    | none => .unsupported k

/-- `SERIALIZE(MSG_IN, M)`: the patterns in input order and the terminator, or the index of the first unsupported
character (R106 to R108). -/
def serialize (msg : Nat → Word) (m : Nat) : Serialized := serializeFrom msg m 0 []

/-- One sequencer step in P_EMB_SER (spec/44_transport_commands.md R201). -/
def embSerStep (s : State) : State :=
  if s.k < s.msgLen.toNat then
    match encChar (s.msgEntry s.k) with
    | some p => { s with bits := s.bits ++ p, k := s.k + 1 }
    | none => s.raise .unsupportedCharacter (BitVec.ofNat 32 s.k)
  else { s with bits := s.bits ++ terminator, phase := .embChk }

end Sys2Proof.Machine
end

