-- ==== Sys2Proof/Machine/LsbPacker.lean ====
section
/-!
DEFINITION. PACK, the bitstream-to-LSB packer (spec/41_lsb_packer.md), and EMBED's capacity and write phases
(spec/44_transport_commands.md R202).
-/

namespace Sys2Proof.Machine

/-- `PACK_CHECK(B, L)`: the bitstream fits (spec/41_lsb_packer.md R131). -/
def packCheck (b l : Nat) : Bool := b ≤ l

/-- The read-modify-write of one sample byte: bit 0 becomes the bit, bits 7:1 stay (R132). -/
def State.packBit (s : State) (i : Nat) (b : Bool) : State := s.setSample i (mergeLsb (s.sampleByte i) b)

/-- PACK_WRITE from byte `i` on, in ascending order (R132, R135). -/
def packFrom : Nat → Bits → State → State
  | _, [], s => s
  | i, b :: bs, s => packFrom (i + 1) bs (s.packBit i b)

/-- `PACK_WRITE(BITS, SAMPLE, L)` (R132). -/
def packWrite (bits : Bits) (s : State) : State := packFrom 0 bits s

/-- The sequencer step in P_EMB_CHK (spec/44_transport_commands.md R202). -/
def embChkStep (s : State) : State :=
  if packCheck s.bits.length s.bufLen.toNat then { s with widx := 0, phase := .embWr }
  else s.raise .capacityExceeded (BitVec.ofNat 32 s.bits.length)

/-- One sequencer step in P_EMB_WR: the next byte, or the end once every bit is written (R202). -/
def embWrStep (s : State) : State :=
  match s.bits[s.widx]? with
  | some b => { s.packBit s.widx b with widx := s.widx + 1 }
  | none => { s with bitsLen := BitVec.ofNat 32 s.bits.length }.finishOk

end Sys2Proof.Machine
end

