-- ==== Sys2Proof/Machine/TransportCommands.lean ====
section
/-!
DEFINITION. The host commands (spec/44_transport_commands.md): what the CMD write of each does (R201, R207), and the
big-step definitions of EMBED and EXTRACT (R200, R204).
-/

namespace Sys2Proof.Machine

/-- A command word is taken only while STATE is not BUSY (spec/10_state.md R24, R33, U4). -/
def whenNotBusy (s t : State) : Host.Outcome State Fault Refusal :=
  if s.state = .busy then .refused .commandWhileBusy else .next t

/-- EMBED: `start()`, into the serialisation phase (R201); the sequencer steps of R201 and R202 follow. -/
def execEmbed (s : State) : Host.Outcome State Fault Refusal := whenNotBusy s (s.start .embSer)

/-- EXTRACT: `start()`, into the scan phase (R201); the tokens of the stream follow, one a step (R205). -/
def execExtract (s : State) : Host.Outcome State Fault Refusal := whenNotBusy s (s.start .extScan)

/-- An illegal command: the ERROR state at once, with no BUSY phase; hidden elements stay (R207). -/
def execIllegal (v : Word) (s : State) : Host.Outcome State Fault Refusal :=
  whenNotBusy s
    { s with
      state := .error
      errCode := .illegalCommand
      errInfo := v
      bitsLen := 0#32
      outLen := 0#32
      epoch := s.epoch + 1 }

/-- EMBED, big-step (R200). -/
def embedBigStep (s : State) : State :=
  let s0 := s.start .embSer
  match serialize s0.msgEntry s0.msgLen.toNat with
  | .unsupported k => s0.raise .unsupportedCharacter (BitVec.ofNat 32 k)
  | .ok bits =>
    if packCheck bits.length s0.bufLen.toNat then
      { packWrite bits s0 with bitsLen := BitVec.ofNat 32 bits.length }.finishOk
    else s0.raise .capacityExceeded (BitVec.ofNat 32 bits.length)

/-- Characters written to OUT from index `k` on (R181, R204). -/
def writeOut : Nat → List Byte → State → State
  | _, [], s => s
  | k, c :: cs, s => writeOut (k + 1) cs (s.setOut k c)

/-- EXTRACT, big-step (R204). -/
def extractBigStep (s : State) : State :=
  let s0 := s.start .extScan
  match scan s0.lsbBit s0.bufLen.toNat with
  | .done chars p =>
    { writeOut 0 chars s0 with
      outLen := BitVec.ofNat 32 chars.length
      bitsLen := BitVec.ofNat 32 (p + 8) }.finishOk
  | .failed e chars p => (writeOut 0 chars s0).raise e (BitVec.ofNat 32 p)

end Sys2Proof.Machine
end

