-- ==== Sys2Proof/Machine/Dispatch.lean ====
section
/-!
DEFINITION. One arm per instruction, each one call of its meaning.
-/

namespace Sys2Proof.Machine

/-- The meaning of an instruction. -/
def exec (i : Instr) (s : State) : Host.Outcome State Fault Refusal :=
  match i with
  | .term => Sys2Proof.Machine.execTerm s
  | .digit d => Sys2Proof.Machine.execDigit d s
  | .upper o => Sys2Proof.Machine.execUpper o s
  | .lower o => Sys2Proof.Machine.execLower o s
  | .embed => Sys2Proof.Machine.execEmbed s
  | .extract => Sys2Proof.Machine.execExtract s
  | .illegal v => Sys2Proof.Machine.execIllegal v s

end Sys2Proof.Machine
end

