-- ==== Sys2Proof/Machine/Flags.lean ====
section
/-!
DEFINITION. The block's only flags, STATUS.STATE and ERR_CODE (spec/10_state.md R40), as the host reads them.
-/

namespace Sys2Proof.Machine

/-- The value of STATUS bits 1:0 (spec/10_state.md R25). -/
def CoreState.code : CoreState → BitVec 2
  | .idle => 0#2
  | .busy => 1#2
  | .done => 2#2
  | .error => 3#2

/-- The value of ERR_CODE bits 2:0 (spec/60_exceptions.md R231). -/
def ErrCode.code : ErrCode → BitVec 3
  | .noError => 0#3
  | .unsupportedCharacter => 1#3
  | .capacityExceeded => 2#3
  | .invalidDigitValue => 3#3
  | .corruptStream => 4#3
  | .terminatorNotFound => 5#3
  | .illegalCommand => 6#3

/-- The STATUS slot: bits 31:2 read 0 (R25). -/
def State.statusWord (s : State) : Word := s.state.code.setWidth 32

/-- The ERR_CODE slot: bits 31:3 read 0 (R26). -/
def State.errCodeWord (s : State) : Word := s.errCode.code.setWidth 32

end Sys2Proof.Machine
end

