-- ==== Sys2Proof/Machine/HostPort.lean ====
section
/-!
DEFINITION. The host's side of the block: the register window (spec/10_state.md R23 to R33), the accesses of
spec/20_memory.md R59, and the host program notation of spec/30_encoding.md R85.
-/

namespace Sys2Proof.Machine

/-- The slots of the register window (spec/10_state.md R23). -/
inductive Slot where
  | cmd
  | status
  | errCode
  | errInfo
  | bufLen
  | msgLen
  | bitsLen
  | outLen
  | reserved
  deriving DecidableEq, Repr

/-- The slot of a number; 8 to 15 are reserved (R23, R32). -/
def slotOf : Nat → Slot
  | 0 => .cmd
  | 1 => .status
  | 2 => .errCode
  | 3 => .errInfo
  | 4 => .bufLen
  | 5 => .msgLen
  | 6 => .bitsLen
  | 7 => .outLen
  | _ => .reserved

/-- What a slot reads as; CMD and the reserved slots read 0 (R24 to R32). -/
def State.readSlot (s : State) : Slot → Word
  | .cmd => 0#32
  | .status => s.statusWord
  | .errCode => s.errCodeWord
  | .errInfo => s.errInfo
  | .bufLen => s.bufLen
  | .msgLen => s.msgLen
  | .bitsLen => s.bitsLen
  | .outLen => s.outLen
  | .reserved => 0#32

/-- A length register takes only a legal value (R28, R29, spec/70_reset_and_hazards.md R266). -/
def writeLength (v : Word) (cap : Nat) (t : State) : Move :=
  if v.toNat ≤ cap then .settled (.next t) else .settled (.refused .lengthAboveCapacity)

/-- A host write of a slot: CMD starts a command, the lengths take their value, every other slot ignores it (R24 to
R32). -/
def State.writeSlot (s : State) (v : Word) : Slot → Move
  | .cmd => .run (decodeCommand v) s
  | .status => .settled (.next s)
  | .errCode => .settled (.next s)
  | .errInfo => .settled (.next s)
  | .bufLen => writeLength v Config.maxBuf { s with bufLen := v }
  | .msgLen => writeLength v Config.maxMsg { s with msgLen := v }
  | .bitsLen => .settled (.next s)
  | .outLen => .settled (.next s)
  | .reserved => .settled (.next s)

/-- The effect of a legal access form (spec/20_memory.md R59); a read changes nothing but what the host knows (R62). -/
def hostForm (s : State) : AccessForm → Move
  | .readSlot n => .settled (.next (s.receive (.word (s.readSlot (slotOf n)))))
  | .writeSlot n v => s.writeSlot v (slotOf n)
  | .readSample i => .settled (.next (s.receive (.byte (s.sampleByte i))))
  | .writeSample i v => .settled (.next (s.setSample i v))
  | .readMsg k => .settled (.next (s.receive (.word (s.msgEntry k))))
  | .writeMsg k v => .settled (.next (s.setMsg k v))
  | .readOut k => .settled (.next (s.receive (.byte (s.outByte k))))

/-- A host access: while STATE = BUSY only a read of STATUS is one the host may make (R59, spec/10_state.md R33). -/
def hostAccess (s : State) (a : Access) : Move :=
  match a.kind with
  | .badForm => .settled (.refused .accessForm)
  | .beyond => .settled (.fault .noSuchLocation)
  | .form f =>
    if s.state = .busy ∧ f ≠ .readSlot 1 then .settled (.refused .hostAccessWhileBusy) else hostForm s f

/-- The number of a slot in program notation: its own for the named slots, 8 for a reserved one (R23, R85). -/
def Slot.number : Slot → Nat
  | .cmd => 0
  | .status => 1
  | .errCode => 2
  | .errInfo => 3
  | .bufLen => 4
  | .msgLen => 5
  | .bitsLen => 6
  | .outLen => 7
  | .reserved => 8

/-- `WR <reg>, <v>` (spec/30_encoding.md R85). -/
def opWr (r : Slot) (v : Word) : HostOp := .access (.write32 .registers (4 * r.number) v)

/-- `RD <reg>` (R85). -/
def opRd (r : Slot) : HostOp := .access (.read32 .registers (4 * r.number))

/-- `WRS <i>, <byte>, ...`: one byte write an entry (R85). -/
def opWrs : Nat → List Byte → List HostOp
  | _, [] => []
  | i, v :: vs => .access (.write8 .sample i v) :: opWrs (i + 1) vs

/-- `WRM <k>, "<text>"`: one 32-bit write a code point (R85). -/
def opWrm : Nat → List Word → List HostOp
  | _, [] => []
  | k, v :: vs => .access (.write32 .message (4 * k) v) :: opWrm (k + 1) vs

/-- `RDS <i>, <n>` (R85). -/
def opRds (i n : Nat) : List HostOp := (List.range n).map (fun j => .access (.read8 .sample (i + j)))

/-- `RDO <k>, <n>` (R85). -/
def opRdo (k n : Nat) : List HostOp := (List.range n).map (fun j => .access (.read8 .output (k + j)))

/-- The pseudo-operation `EMBED` (R85). -/
def opEmbed : List HostOp := [opWr .cmd 0x00000001#32, .poll]

/-- The pseudo-operation `EXTRACT` (R85). -/
def opExtract : List HostOp := [opWr .cmd 0x00000002#32, .poll]

/-- The pseudo-operation `LOAD "<text>"` (R85). -/
def opLoad (text : List Word) : List HostOp := opWrm 0 text ++ [opWr .msgLen (BitVec.ofNat 32 text.length)]

end Sys2Proof.Machine
end

