-- ==== Sys2Proof/Machine/Sequencer.lean ====
section
/-!
DEFINITION. Who moves next and with what: the core's sequencer (spec/44_transport_commands.md R201, R202, R205) and
the host's next operation (spec/30_encoding.md R85), and where the next instruction is placed for a test of one step.
-/

namespace Sys2Proof.Machine

/-- The scan's fetch: the token at POS is the instruction to run; a stream with no whole token there ends the command
(spec/43_character_decoder.md R180 to R182). -/
def scanMove (s : State) : Move :=
  match decode (.stream s.scanWindow) with
  | .instr i _ => .run i s
  | .exhausted => .settled (.next (s.scanError .terminatorNotFound))
  | .truncated => .settled (.next (s.scanError .terminatorNotFound))

/-- One sequencer step of the core; with no command it keeps its state (spec/60_exceptions.md R250; log 13). -/
def coreMove (s : State) : Move :=
  match s.phase with
  | .idle => .settled (.next s)
  | .embSer => .settled (.next (embSerStep s))
  | .embChk => .settled (.next (embChkStep s))
  | .embWr => .settled (.next (embWrStep s))
  | .extScan => scanMove s

/-- POLL ends once STATE is DONE or ERROR, with that STATUS read; until then the core moves (spec/30_encoding.md R85;
log 7). -/
def pollMove (s : State) (rest : List HostOp) : Move :=
  match s.state with
  | .idle => coreMove s
  | .busy => coreMove s
  | .done => .settled (.next ({ s with hostProgram := rest }.receive (.word s.statusWord)))
  | .error => .settled (.next ({ s with hostProgram := rest }.receive (.word s.statusWord)))

/-- The next move: the host's next operation, or the core's when the host has none or waits (R20, R33; log 6). -/
def nextMove (s : State) : Move :=
  match s.hostProgram with
  | [] => coreMove s
  | op :: rest =>
    match op with
    | .wait => coreMove { s with hostProgram := rest }
    | .poll => pollMove s rest
    | .reset => .settled (.next { s with hostProgram := rest }.applyReset)
    | .access a => hostAccess { s with hostProgram := rest } a

/-- Writes a bit sequence as whole sample bytes from index `i` on: bit 0 the bit, bits 7:1 what a written byte has
and 0 for one that nothing has written. -/
def placeBits : Nat → Bits → State → State
  | _, [], s => s
  | i, b :: bs, s => placeBits (i + 1) bs (s.setSample i (mergeLsb ((Memory.get? s.sample i).getD 0#8) b))

/-- The state whose next step scans the 8-bit window `w`: a scan in progress (started if there is none), the window at
its position inside the buffer, and no host operation before it (log 19). -/
def State.placeToken (s : State) (w : Nat) : State :=
  let s0 := if s.phase = .extScan ∧ s.pos + 8 < 4294967296 then s else s.start .extScan
  let s1 := { s0 with
    hostProgram := []
    bufLen := if s0.remaining < 8 then BitVec.ofNat 32 (s0.pos + 8) else s0.bufLen }
  placeBits s1.pos (bin 8 w) s1

/-- The state whose next step is the host's write of the word `w` to CMD, the core not BUSY (log 19). -/
def State.placeCommand (s : State) (w : Nat) : State :=
  let s0 := if s.state = .busy then { s with state := .idle, phase := .idle } else s
  { s0 with hostProgram := opWr .cmd (BitVec.ofNat 32 w) :: s0.hostProgram }

end Sys2Proof.Machine
end

