-- ==== Sys2Proof/Machine/Step.lean ====
section
/-!
DEFINITION. One step: the next move, with exec where it holds an instruction; and where a word of the opcode table is
placed so that the next step runs it.
-/

namespace Sys2Proof.Machine

/-- One step of the block and its host. -/
def step (s : State) : Host.Outcome State Fault Refusal :=
  match nextMove s with
  | .run i t => exec i t
  | .settled o => o

/-- The state with an opcode-table word placed as its next instruction: a token in the LSB stream, or a CMD word in
the host's next write (log 19). -/
def State.withFetchWord (s : State) (nbits w : Nat) : State :=
  if nbits ≤ 8 then s.placeToken w else s.placeCommand w

end Sys2Proof.Machine
end

