-- ==== Sys2Proof/Safety.lean ====
section
/-!
DEFINITION. What a claim speaks of: what the host can observe (spec/10_state.md R42), and the invariant of every
state a run can reach, in the parts the spec states them.
-/

namespace Sys2Proof.Machine

/-- What the host can observe when no command runs: the registers and the memories (spec/10_state.md R42). -/
structure Visible where
  state : CoreState
  errCode : ErrCode
  errInfo : Word
  bufLen : Word
  msgLen : Word
  bitsLen : Word
  outLen : Word
  sample : Memory 8
  msgIn : Memory 32
  out : Memory 8
  deriving DecidableEq, Repr

/-- The observable part of a state (R42). -/
def State.visible (s : State) : Visible where
  state := s.state
  errCode := s.errCode
  errInfo := s.errInfo
  bufLen := s.bufLen
  msgLen := s.msgLen
  bitsLen := s.bitsLen
  outLen := s.outLen
  sample := s.sample
  msgIn := s.msgIn
  out := s.out

/-- It is the core's turn in `u`, and `s` is the state it moves from: the host has no operation left, waits, or polls
a command that has not ended (log 7). -/
def State.CoreTurn (u s : State) : Prop :=
  (u.hostProgram = [] ∧ s = u) ∨
  (∃ rest, u.hostProgram = .wait :: rest ∧ s = { u with hostProgram := rest }) ∨
  (∃ rest, u.hostProgram = .poll :: rest ∧ u.state ≠ .done ∧ u.state ≠ .error ∧ s = u)

/-- Every memory has its canonical form. -/
abbrev State.MemoryForm (s : State) : Prop :=
  Memory.wf s.sample ∧ Memory.wf s.msgIn ∧ Memory.wf s.out

/-- PHASE is P_IDLE exactly when STATE is not BUSY (R34); ERR_CODE is NONE exactly when STATE is not ERROR (R26);
ERR_INFO is 0 with NONE (R27); BITS_LEN and OUT_LEN are 0 in every state but DONE (R30, R31). -/
abbrev State.Control (s : State) : Prop :=
  (s.phase = .idle ↔ s.state ≠ .busy) ∧
  (s.errCode = .noError ↔ s.state ≠ .error) ∧
  (s.errCode = .noError → s.errInfo = 0#32) ∧
  (s.state ≠ .done → s.bitsLen = 0#32 ∧ s.outLen = 0#32)

/-- The bounds of the hidden elements in each phase (R35 to R38): K characters make 5*K to 7*K bits, a bitstream has 8
bits or more, WIDX stays within it, and POS within the buffer and at least 5*K. -/
abbrev State.Bounds (s : State) : Prop :=
  (s.phase = .embSer → s.k ≤ s.msgLen.toNat ∧ 5 * s.k ≤ s.bits.length ∧ s.bits.length ≤ 7 * s.k) ∧
  (s.phase = .embChk → 8 ≤ s.bits.length ∧ s.bits.length ≤ 7 * s.msgLen.toNat + 8) ∧
  (s.phase = .embWr → 8 ≤ s.bits.length ∧ s.widx ≤ s.bits.length ∧ s.bits.length ≤ s.bufLen.toNat) ∧
  (s.phase = .extScan → s.pos ≤ s.bufLen.toNat ∧ 5 * s.k ≤ s.pos)

/-- A byte that is the code point of a digit or a letter (spec/20_memory.md R52, spec/30_encoding.md R70). -/
def isCharacter (c : Byte) : Bool := classify (c.setWidth 32) ≠ .unsupported

/-- The characters recovered so far are written to OUT: below K during a scan (R36), below OUT_LEN after it (R31). -/
abbrev State.Recovered (s : State) : Prop :=
  (s.phase = .extScan → ∀ j < s.k, (Memory.get? s.out j).any isCharacter) ∧
  (∀ j < s.outLen.toNat, (Memory.get? s.out j).any isCharacter)

/-- The lengths and the written locations are within the capacities (R28, R29, spec/20_memory.md R50 to R52). -/
def State.Sizes (s : State) : Prop :=
  s.bufLen.toNat ≤ Config.maxBuf ∧ s.msgLen.toNat ≤ Config.maxMsg ∧
  (∀ e ∈ s.sample, e.1 < Config.maxBuf) ∧ (∀ e ∈ s.msgIn, e.1 < Config.maxMsg) ∧
  (∀ e ∈ s.out, e.1 < Config.maxOut)

/-- The invariant of the machine. -/
def State.Inv (s : State) : Prop :=
  s.MemoryForm ∧ s.Control ∧ s.Bounds ∧ s.Recovered ∧ s.Sizes

end Sys2Proof.Machine
end

