-- ==== Sys2Proof/Certificates/Slice0/Obligations.lean ====
section
/-!
DEFINITION. The statements for the provers, by file of the spec. Each docstring names the rule it formalises; where a
clause rests on the model's own choice it names the log entry.
-/

open Sys2Proof Sys2Proof.Machine

/-! ## spec/30_encoding.md: encodings -/

/-- R82: a CMD word is decoded on all 32 bits, every word is a command, and the command's word is the word. -/
def Obligations.CommandWordsDecodeInFull : Prop :=
  ∀ v : Word,
    decode (.command v)
      = .instr (if v = 0x00000001#32 then .embed else if v = 0x00000002#32 then .extract else .illegal v) [] ∧
    encode (decodeCommand v) = .command v

/-- R72, R75, R76: what stands at a boundary, decided in the order of R76 by the bits that remain, with the payload as
R72 assembles it; eight ones are TERM whatever the rest, and with fewer than 8 bits nothing is. -/
def Obligations.TokenAtABoundaryFollowsTheLengthRule : Prop :=
  ∀ b : Bits,
    decode (.stream b) =
      if 8 ≤ b.length ∧ b.take 8 = List.replicate 8 true then .instr .term (b.drop 8)
      else if b.length = 0 then .exhausted
      else if b[0]? = some false then
        if 5 ≤ b.length then .instr (.digit (BitVec.ofNat 4 (valueOf ((b.drop 1).take 4)))) (b.drop 5) else .truncated
      else if b.length < 7 then .truncated
      else if b[1]? = some false then .instr (.upper (BitVec.ofNat 5 (valueOf ((b.drop 2).take 5)))) (b.drop 7)
      else .instr (.lower (BitVec.ofNat 5 (valueOf ((b.drop 2).take 5)))) (b.drop 7)

/-- R71, R72, R75: a token's pattern, followed by any more of the stream, decodes to the token and leaves the rest, at
every payload; only LOWER 31 followed by a 1 is TERM instead. -/
def Obligations.DecodeOfEncodedTokenIsTheToken : Prop :=
  ∀ (i : Instr) (rest : Bits), tokenBits i ≠ [] → (i = .lower 31#5 → rest.head? ≠ some true) →
    decode ((encode i).followedBy rest) = .instr i rest

/-- R71, R72: no bit of the stream is dropped: the decoded token's pattern and the rest are the stream. -/
def Obligations.DecodedTokenIsWhatStandsThere : Prop :=
  ∀ (b : Bits) (i : Instr) (rest : Bits), decode (.stream b) = .instr i rest → tokenBits i ++ rest = b

/-- The words of spec/95_test_vectors.md L1-7, V-C10 and V-C12 and TERM, as opcode-table words. -/
def Obligations.WrittenOutWordsDecode : Prop :=
  decodeTableWord 8 0b11111111 = some .term ∧
  decodeTableWord 8 0b00101000 = some (.digit 5#4) ∧
  decodeTableWord 8 0b10000000 = some (.upper 0#5) ∧
  decodeTableWord 8 0b11110010 = some (.lower 25#5) ∧
  decodeTableWord 32 0x00000001 = some .embed ∧
  decodeTableWord 32 0x00000002 = some .extract ∧
  decodeTableWord 32 0x80000001 = some (.illegal 0x80000001#32)

/-- R80 (derived there): a character's pattern is never read as the terminator, whatever follows it. -/
def Obligations.NoCharacterIsReadAsTerminator : Prop :=
  ∀ (c : Word) (p rest : Bits), encChar c = some p →
    ∃ i, i ≠ .term ∧ decode (.stream (p ++ rest)) = .instr i rest

/-! ## spec/40_character_encoder.md: VLCE -/

/-- R102 to R105: the pattern of each class, and none outside the three classes. -/
def Obligations.EncCharGivesTheClassPattern : Prop :=
  ∀ c : Word,
    (0x30 ≤ c.toNat → c.toNat ≤ 0x39 → encChar c = some ([false] ++ bin 4 (c.toNat - 0x30))) ∧
    (0x41 ≤ c.toNat → c.toNat ≤ 0x5A → encChar c = some ([true, false] ++ bin 5 (c.toNat - 0x41))) ∧
    (0x61 ≤ c.toNat → c.toNat ≤ 0x7A → encChar c = some ([true, true] ++ bin 5 (c.toNat - 0x61))) ∧
    (¬ (0x30 ≤ c.toNat ∧ c.toNat ≤ 0x39) → ¬ (0x41 ≤ c.toNat ∧ c.toNat ≤ 0x5A) →
      ¬ (0x61 ≤ c.toNat ∧ c.toNat ≤ 0x7A) → encChar c = none)

/-- R78 and R108: the bitstream is the patterns in input order and one terminator, for the empty message too. -/
def Obligations.SerializeConcatenatesThePatterns : Prop :=
  ∀ (msg : Nat → Word) (m : Nat), (∀ k < m, classify (msg k) ≠ .unsupported) →
    serialize msg m
      = .ok (((List.range m).flatMap fun k => (encChar (msg k)).getD []) ++ List.replicate 8 true)

/-- R107: SERIALIZE answers the index of the first unsupported character exactly when there is one. -/
def Obligations.SerializeReportsTheFirstUnsupported : Prop :=
  ∀ (msg : Nat → Word) (m k : Nat),
    serialize msg m = .unsupported k ↔
      k < m ∧ classify (msg k) = .unsupported ∧ ∀ j < k, classify (msg j) ≠ .unsupported

/-- R79 (derived there): the length of a message bitstream. -/
def Obligations.BitstreamLengthIsTheClassCount : Prop :=
  ∀ (msg : Nat → Word) (m : Nat) (bits : Bits), serialize msg m = .ok bits →
    bits.length
      = 5 * (List.range m).countP (fun k => classify (msg k) = .digit)
        + 7 * ((List.range m).countP (fun k => classify (msg k) = .upper)
              + (List.range m).countP (fun k => classify (msg k) = .lower)) + 8

/-- R109: SERIALIZE depends only on `M` and the first `M` characters. -/
def Obligations.SerializeDependsOnlyOnTheMessage : Prop :=
  ∀ (msg msg' : Nat → Word) (m : Nat), (∀ k < m, msg k = msg' k) → serialize msg m = serialize msg' m

/-- R110 (derived there): scanning a stream that begins with a message's bitstream gives the message and stops at the
terminator. -/
def Obligations.ScanOfASerializedMessageIsTheMessage : Prop :=
  ∀ (msg : Nat → Word) (m : Nat) (bits : Bits) (b : Nat → Bool) (l : Nat),
    serialize msg m = .ok bits → bits.length ≤ l → slice b 0 bits.length = bits →
    scan b l = .done ((List.range m).map fun k => (msg k).setWidth 8) (bits.length - 8)

/-! ## spec/41_lsb_packer.md: PACK -/

/-- R133 and R134: after PACK_WRITE every payload byte has its bit in bit 0 and its old bits 7:1, every other byte is
as before, and nothing but SAMPLE changes. -/
def Obligations.PackWriteReplacesOnlyTheLowBits : Prop :=
  ∀ (bits : Bits) (s : State),
    (∀ (i : Nat) (b : Bool), bits[i]? = some b →
      lsbOf ((packWrite bits s).sampleByte i) = b ∧
      (packWrite bits s).sampleByte i &&& 0xFE#8 = s.sampleByte i &&& 0xFE#8) ∧
    (∀ i, bits.length ≤ i → (packWrite bits s).sampleByte i = s.sampleByte i) ∧
    packWrite bits s = { s with sample := (packWrite bits s).sample }

/-- R155 (derived there): the LSB stream of the packed buffer is the bitstream, then the bits that were there. -/
def Obligations.LsbStreamOfAPackedBuffer : Prop :=
  ∀ (bits : Bits) (s : State), bits.length ≤ s.bufLen.toNat →
    (packWrite bits s).lsbStream = bits ++ s.lsbStream.drop bits.length

/-! ## spec/43_character_decoder.md: VLCD -/

/-- R172 to R177: what DEC_CHAR answers, by marker, remaining bits and payload. -/
def Obligations.DecCharFollowsItsArms : Prop :=
  ∀ (b : Nat → Bool) (p l : Nat), p < l →
    (b p = false → 5 ≤ l - p → valueOf (slice b (p + 1) 4) ≤ 9 →
      decChar b p l = .char (BitVec.ofNat 8 (0x30 + valueOf (slice b (p + 1) 4))) 5) ∧
    (b p = true → b (p + 1) = false → 7 ≤ l - p → valueOf (slice b (p + 2) 5) ≤ 25 →
      decChar b p l = .char (BitVec.ofNat 8 (0x41 + valueOf (slice b (p + 2) 5))) 7) ∧
    (b p = true → b (p + 1) = true → 7 ≤ l - p → valueOf (slice b (p + 2) 5) ≤ 25 →
      decChar b p l = .char (BitVec.ofNat 8 (0x61 + valueOf (slice b (p + 2) 5))) 7) ∧
    (b p = false → l - p ≤ 4 → decChar b p l = .truncated) ∧
    (b p = true → l - p ≤ 6 → decChar b p l = .truncated) ∧
    (b p = false → 5 ≤ l - p → 10 ≤ valueOf (slice b (p + 1) 4) → decChar b p l = .invalidDigit) ∧
    (b p = true → 7 ≤ l - p → 26 ≤ valueOf (slice b (p + 2) 5) → decChar b p l = .corrupt)

/-- R171: DEC_CHAR reads only the bits of its token, 5 after a marker 0 and 7 after a marker 1, and none at or past
index L. -/
def Obligations.DecCharReadsOnlyItsToken : Prop :=
  ∀ (b b' : Nat → Bool) (p l : Nat), p < l → (∀ i, p ≤ i → i < l → i < p + (if b p then 7 else 5) → b i = b' i) →
    decChar b p l = decChar b' p l

/-- R186 (derived there): a character's pattern at a boundary decodes to the character, at its width. -/
def Obligations.DecCharOfAnEncodedCharacter : Prop :=
  ∀ (c : Word) (s : Bits) (b : Nat → Bool) (p l : Nat), encChar c = some s → s.length ≤ l - p →
    slice b p s.length = s → decChar b p l = .char (c.setWidth 8) s.length

/-- R180 to R183 (the order of R239): one step of a scan in which the core moves, the host done, waiting or polling. -/
def Obligations.ScanStepFollowsTheOrderOfTests : Prop :=
  ∀ u s : State, u.CoreTurn s → s.phase = .extScan →
    step u = .next
      (if 8 ≤ s.remaining ∧ slice s.lsbBit s.pos 8 = List.replicate 8 true then
        { s with outLen := BitVec.ofNat 32 s.k, bitsLen := BitVec.ofNat 32 (s.pos + 8), state := .done, phase := .idle }
      else if s.remaining = 0 then s.raise .terminatorNotFound (BitVec.ofNat 32 s.pos)
      else match decChar s.lsbBit s.pos s.bufLen.toNat with
        | .char c w => { s with out := Memory.set s.out s.k c, k := s.k + 1, pos := s.pos + w }
        | .truncated => s.raise .terminatorNotFound (BitVec.ofNat 32 s.pos)
        | .invalidDigit => s.raise .invalidDigitValue (BitVec.ofNat 32 s.pos)
        | .corrupt => s.raise .corruptStream (BitVec.ofNat 32 s.pos))

/-- R185 (derived there): where a scan can end, and how many characters it can have. -/
def Obligations.ScanEndsWithinTheBuffer : Prop :=
  ∀ (b : Nat → Bool) (l : Nat),
    match scan b l with
    | .done doneChars p => 5 * doneChars.length ≤ p ∧ p + 8 ≤ l
    | .failed _ failedChars p => 5 * failedChars.length ≤ p ∧ p ≤ l

/-- R187 (derived there): two streams that agree up to the stop point of a scan give the same scan. -/
def Obligations.ScanReadsOnlyBeforeItsStop : Prop :=
  ∀ (b b' : Nat → Bool) (l : Nat),
    (∀ i, i < (match scan b l with
      | .done _ p => p + 8
      | .failed _ _ p => min l (p + 8)) → b i = b' i) →
    scan b' l = scan b l

/-- R172 to R174 with R181: a token with a character writes it to OUT[K] and moves K and POS; nothing else changes. -/
def Obligations.CharacterTokensAreDecoded : Prop :=
  ∀ s : State, s.phase = .extScan →
    (∀ d : BitVec 4, 5 ≤ s.remaining → d.toNat ≤ 9 →
      exec (.digit d) s = .next
        { s with out := Memory.set s.out s.k (BitVec.ofNat 8 (0x30 + d.toNat)), k := s.k + 1, pos := s.pos + 5 }) ∧
    (∀ o : BitVec 5, 7 ≤ s.remaining → o.toNat ≤ 25 →
      exec (.upper o) s = .next
        { s with out := Memory.set s.out s.k (BitVec.ofNat 8 (0x41 + o.toNat)), k := s.k + 1, pos := s.pos + 7 }) ∧
    (∀ o : BitVec 5, 7 ≤ s.remaining → o.toNat ≤ 25 →
      exec (.lower o) s = .next
        { s with out := Memory.set s.out s.k (BitVec.ofNat 8 (0x61 + o.toNat)), k := s.k + 1, pos := s.pos + 7 })

/-- R184: TERM ends the command with OUT_LEN, BITS_LEN and DONE, adds nothing to the message, and does not look at the
samples. -/
def Obligations.TermTokenEndsTheScan : Prop :=
  ∀ s : State, s.phase = .extScan → 8 ≤ s.remaining →
    exec .term s = .next
      { s with
        outLen := BitVec.ofNat 32 s.k
        bitsLen := BitVec.ofNat 32 (s.pos + 8)
        state := .done
        phase := .idle }

/-- R175 to R177 with R182 and R183: a token that is cut off or has no character ends the command in ERROR, ERR_INFO
its boundary. The cut-off TERM is the model's reading (log 11). -/
def Obligations.TokensWithoutACharacterRaise : Prop :=
  ∀ s : State, s.phase = .extScan →
    (∀ d : BitVec 4, s.remaining < 5 →
      exec (.digit d) s = .next (s.raise .terminatorNotFound (BitVec.ofNat 32 s.pos))) ∧
    (∀ d : BitVec 4, 5 ≤ s.remaining → 10 ≤ d.toNat →
      exec (.digit d) s = .next (s.raise .invalidDigitValue (BitVec.ofNat 32 s.pos))) ∧
    (∀ o : BitVec 5, s.remaining < 7 →
      exec (.upper o) s = .next (s.raise .terminatorNotFound (BitVec.ofNat 32 s.pos)) ∧
      exec (.lower o) s = .next (s.raise .terminatorNotFound (BitVec.ofNat 32 s.pos))) ∧
    (∀ o : BitVec 5, 7 ≤ s.remaining → 26 ≤ o.toNat →
      exec (.upper o) s = .next (s.raise .corruptStream (BitVec.ofNat 32 s.pos)) ∧
      exec (.lower o) s = .next (s.raise .corruptStream (BitVec.ofNat 32 s.pos))) ∧
    (s.remaining < 7 → exec .term s = .next (s.raise .terminatorNotFound (BitVec.ofNat 32 s.pos))) ∧
    (s.remaining = 7 → exec .term s = .next (s.raise .corruptStream (BitVec.ofNat 32 s.pos)))

/-- R13 with R181 to R184 and R240, the frame of TERM, DIGIT, UPPER and LOWER: a token leaves the lengths, SAMPLE,
MSG_IN, BITS, WIDX, the host and every OUT entry but OUT[K]. -/
def Obligations.TokensLeaveTheRest : Prop :=
  ∀ (i : Instr) (s t : State), tokenBits i ≠ [] → exec i s = .next t →
    t.bufLen = s.bufLen ∧ t.msgLen = s.msgLen ∧ t.msgIn = s.msgIn ∧ t.bits = s.bits ∧ t.widx = s.widx ∧
    t.hostProgram = s.hostProgram ∧ t.received = s.received ∧ t.epoch = s.epoch ∧
    (∀ a, t.sampleByte a = s.sampleByte a) ∧ (∀ a, a ≠ s.k → Memory.get? t.out a = Memory.get? s.out a)

/-! ## spec/44_transport_commands.md: the host commands -/

/-- R201: what a CMD write of each command does, and one sequencer step of the serialisation phase, the host done,
waiting or polling. The counter `epoch` that start() advances is the model's own (log 2), no rule of the spec. -/
def Obligations.CommandStartAndSerialisationSteps : Prop :=
  ∀ s : State,
    (s.state ≠ .busy →
      exec .embed s = .next
        { s with
          state := .busy, errCode := .noError, errInfo := 0#32, bitsLen := 0#32, outLen := 0#32
          k := 0, pos := 0, widx := 0, bits := [], phase := .embSer, epoch := s.epoch + 1 } ∧
      exec .extract s = .next
        { s with
          state := .busy, errCode := .noError, errInfo := 0#32, bitsLen := 0#32, outLen := 0#32
          k := 0, pos := 0, widx := 0, bits := [], phase := .extScan, epoch := s.epoch + 1 }) ∧
    (∀ u : State, u.CoreTurn s → s.phase = .embSer →
      step u = .next
        (if s.k < s.msgLen.toNat then
          match encChar (s.msgEntry s.k) with
          | some p => { s with bits := s.bits ++ p, k := s.k + 1 }
          | none => s.raise .unsupportedCharacter (BitVec.ofNat 32 s.k)
        else { s with bits := s.bits ++ List.replicate 8 true, phase := .embChk }))

/-- R202: one sequencer step of the capacity phase and of the write phase, the host done, waiting or polling. -/
def Obligations.CapacityAndWriteSteps : Prop :=
  ∀ u s : State, u.CoreTurn s →
    (s.phase = .embChk →
      step u = .next
        (if s.bits.length ≤ s.bufLen.toNat then { s with widx := 0, phase := .embWr }
        else s.raise .capacityExceeded (BitVec.ofNat 32 s.bits.length))) ∧
    (s.phase = .embWr →
      (∀ b, s.bits[s.widx]? = some b →
        step u = .next
          { s with
            sample := Memory.set s.sample s.widx ((s.sampleByte s.widx &&& 0xFE#8) ||| (if b then 1#8 else 0#8))
            widx := s.widx + 1 }) ∧
      (s.bits.length ≤ s.widx →
        step u = .next { s with bitsLen := BitVec.ofNat 32 s.bits.length, state := .done, phase := .idle }))

/-- R200 with R232, R233, R238 and R240 (the table of R203): the result of EMBED, by its three outcomes. -/
def Obligations.EmbedResults : Prop :=
  ∀ s : State,
    match serialize s.msgEntry s.msgLen.toNat with
    | .unsupported k =>
      (embedBigStep s).visible =
        { s.visible with
          state := .error, errCode := .unsupportedCharacter, errInfo := BitVec.ofNat 32 k, bitsLen := 0#32
          outLen := 0#32 }
    | .ok bits =>
      if bits.length ≤ s.bufLen.toNat then
        (embedBigStep s).visible =
          { s.visible with
            state := .done, errCode := .noError, errInfo := 0#32, bitsLen := BitVec.ofNat 32 bits.length
            outLen := 0#32, sample := (embedBigStep s).sample } ∧
        ∀ i, (embedBigStep s).sampleByte i =
          match bits[i]? with
          | some b => (s.sampleByte i &&& 0xFE#8) ||| (if b then 1#8 else 0#8)
          | none => s.sampleByte i
      else
        (embedBigStep s).visible =
          { s.visible with
            state := .error, errCode := .capacityExceeded, errInfo := BitVec.ofNat 32 bits.length, bitsLen := 0#32
            outLen := 0#32 }

/-- R208 (derived there): from any state at a CMD write the sequencer steps end, in the visible state of the big-step
definition of the command. -/
def Obligations.CommandRunsReachTheirBigStep : Prop :=
  ∀ s : State, s.state ≠ .busy →
    (s.hostProgram = [opWr .cmd 0x00000001#32] →
      ∃ n t, Host.Core.run Sys2Proof.core n s = .next t ∧ t.phase = .idle ∧ t.hostProgram = [] ∧
        t.visible = (embedBigStep s).visible) ∧
    (s.hostProgram = [opWr .cmd 0x00000002#32] →
      ∃ n t, Host.Core.run Sys2Proof.core n s = .next t ∧ t.phase = .idle ∧ t.hostProgram = [] ∧
        t.visible = (extractBigStep s).visible)

/-- R202 and R214: a successful EMBED is BUSY for M + 1, then 1, then |BITS| + 1 steps after its CMD write, and no
longer. -/
def Obligations.EmbedTakesItsStepCount : Prop :=
  ∀ (s : State) (bits : Bits), s.state ≠ .busy → s.hostProgram = [opWr .cmd 0x00000001#32] →
    serialize s.msgEntry s.msgLen.toNat = .ok bits → bits.length ≤ s.bufLen.toNat →
    (∃ t, Host.Core.run Sys2Proof.core (s.msgLen.toNat + bits.length + 3) s = .next t ∧ t.state = .busy) ∧
    (∃ t, Host.Core.run Sys2Proof.core (s.msgLen.toNat + bits.length + 4) s = .next t ∧ t.state = .done)

/-- R205 with R185: a scan ends within floor(R/5) + 1 steps, R the bits that remain. -/
def Obligations.ExtractEndsWithinItsStepBound : Prop :=
  ∀ s : State, s.phase = .extScan → s.hostProgram = [] →
    ∃ t, Host.Core.run Sys2Proof.core (s.remaining / 5 + 1) s = .next t ∧ t.phase = .idle ∧
      (t.state = .done ∨ t.state = .error)

/-- R206: the result of EXTRACT, by its outcomes. That an OUT entry with no specified value reads as a free value is
log 2. -/
def Obligations.ExtractResults : Prop :=
  ∀ s : State,
    match scan s.lsbBit s.bufLen.toNat with
    | .done chars p =>
      (extractBigStep s).visible =
        { s.visible with
          state := .done, errCode := .noError, errInfo := 0#32, bitsLen := BitVec.ofNat 32 (p + 8)
          outLen := BitVec.ofNat 32 chars.length, out := (extractBigStep s).out } ∧
      ∀ j, (extractBigStep s).outByte j = chars.getD j (Config.unspecifiedOut (s.epoch + 1) j)
    | .failed e _ p =>
      (extractBigStep s).visible =
        { s.visible with
          state := .error, errCode := e, errInfo := BitVec.ofNat 32 p, bitsLen := 0#32, outLen := 0#32
          out := (extractBigStep s).out } ∧
      ∀ j, (extractBigStep s).outByte j = Config.unspecifiedOut (s.epoch + 1) j

/-- R207: any other command word ends at once in ERROR with ILLEGAL_COMMAND and the word, and nothing else changes.
The counter `epoch` that it advances is the model's own (log 2), no rule of the spec. -/
def Obligations.IllegalCommandEndsInError : Prop :=
  ∀ (s : State) (v : Word), s.state ≠ .busy →
    exec (.illegal v) s = .next
      { s with
        state := .error, errCode := .illegalCommand, errInfo := v, bitsLen := 0#32, outLen := 0#32
        epoch := s.epoch + 1 }

/-- The model's choices where the spec gives no effect: a command word while STATE = BUSY (U4, log 8) and a token
outside a scan (log 11) are refused by name. -/
def Obligations.InstructionsOutOfPlaceAreRefused : Prop :=
  ∀ (i : Instr) (s : State),
    (tokenBits i = [] → s.state = .busy → exec i s = .refused .commandWhileBusy) ∧
    (tokenBits i ≠ [] → s.phase ≠ .extScan → exec i s = .refused .tokenOutsideScan)

/-- R13 with R201 and R207, the frame of EMBED, EXTRACT and ILLEGAL: the CMD write leaves the lengths, the host and
every location of every memory. -/
def Obligations.CommandWritesLeaveTheRest : Prop :=
  ∀ (i : Instr) (s t : State), tokenBits i = [] → exec i s = .next t →
    t.bufLen = s.bufLen ∧ t.msgLen = s.msgLen ∧ t.hostProgram = s.hostProgram ∧ t.received = s.received ∧
    (∀ a, t.sampleByte a = s.sampleByte a) ∧ (∀ a, t.msgEntry a = s.msgEntry a) ∧
    (∀ a, Memory.get? t.out a = Memory.get? s.out a)

/-- R43 and R209: the result of a command is a function of the lengths, the buffer and the message. -/
def Obligations.CommandResultsDependOnlyOnTheirInputs : Prop :=
  ∀ s s' : State, s.bufLen = s'.bufLen → s.msgLen = s'.msgLen →
    (∀ i < s.bufLen.toNat, s.sampleByte i = s'.sampleByte i) →
    (∀ k < s.msgLen.toNat, s.msgEntry k = s'.msgEntry k) →
    (∀ slot, (embedBigStep s).readSlot slot = (embedBigStep s').readSlot slot) ∧
    (∀ i < s.bufLen.toNat, (embedBigStep s).sampleByte i = (embedBigStep s').sampleByte i) ∧
    (∀ slot, (extractBigStep s).readSlot slot = (extractBigStep s').readSlot slot) ∧
    (∀ j < (extractBigStep s).outLen.toNat, (extractBigStep s).outByte j = (extractBigStep s').outByte j)

/-- R210 (derived there): EXTRACT after a fitting EMBED of a supported message gives the message back. -/
def Obligations.ExtractAfterEmbedReturnsTheMessage : Prop :=
  ∀ (s : State) (bits : Bits), serialize s.msgEntry s.msgLen.toNat = .ok bits → bits.length ≤ s.bufLen.toNat →
    (embedBigStep s).state = .done ∧
    (extractBigStep (embedBigStep s)).state = .done ∧
    (extractBigStep (embedBigStep s)).outLen = s.msgLen ∧
    (extractBigStep (embedBigStep s)).bitsLen = (embedBigStep s).bitsLen ∧
    ∀ k < s.msgLen.toNat, (extractBigStep (embedBigStep s)).outByte k = (s.msgEntry k).setWidth 8

/-- R212 (derived there): EMBED of a supported message succeeds exactly when the bitstream's length is at most
BUF_LEN. -/
def Obligations.EmbedSucceedsExactlyWhenItFits : Prop :=
  ∀ s : State, (∀ k < s.msgLen.toNat, classify (s.msgEntry k) ≠ .unsupported) →
    ((embedBigStep s).state = .done ↔
      5 * (List.range s.msgLen.toNat).countP (fun k => classify (s.msgEntry k) = .digit)
        + 7 * (List.range s.msgLen.toNat).countP (fun k => classify (s.msgEntry k) ≠ .digit) + 8
        ≤ s.bufLen.toNat)

/-- R213 (derived there): the empty message is the terminator alone, and extracts as the empty message. -/
def Obligations.EmptyMessageIsTheTerminatorAlone : Prop :=
  ∀ s : State, s.msgLen = 0#32 → 8 ≤ s.bufLen.toNat →
    (embedBigStep s).state = .done ∧ (embedBigStep s).bitsLen = 8#32 ∧
    (∀ i, (embedBigStep s).sampleByte i = if i < 8 then s.sampleByte i ||| 1#8 else s.sampleByte i) ∧
    (extractBigStep (embedBigStep s)).state = .done ∧
    (extractBigStep (embedBigStep s)).outLen = 0#32 ∧ (extractBigStep (embedBigStep s)).bitsLen = 8#32

/-! ## spec/20_memory.md: all-or-nothing, and who writes what -/

/-- R61: at every moment of a run from a CMD write in which the host waits, polls or reads STATUS, an EMBED in ERROR
has written no byte of SAMPLE, one in DONE has written the payload bytes alone, and an EXTRACT has written none. -/
def Obligations.CommandsAreAllOrNothingOnSample : Prop :=
  ∀ (s t : State) (rest : List HostOp) (n : Nat), s.state ≠ .busy →
    (∀ op ∈ rest, op = .wait ∨ op = .poll ∨ op = opRd .status) →
    (s.hostProgram = opWr .cmd 0x00000001#32 :: rest → Host.Core.run Sys2Proof.core (n + 1) s = .next t →
      (t.state = .error → ∀ i, t.sampleByte i = s.sampleByte i) ∧
      (t.state = .done → ∃ bits, serialize s.msgEntry s.msgLen.toNat = .ok bits ∧
        ∀ i, t.sampleByte i =
          match bits[i]? with
          | some b => (s.sampleByte i &&& 0xFE#8) ||| (if b then 1#8 else 0#8)
          | none => s.sampleByte i)) ∧
    (s.hostProgram = opWr .cmd 0x00000002#32 :: rest → Host.Core.run Sys2Proof.core (n + 1) s = .next t →
      ∀ i, t.sampleByte i = s.sampleByte i)

/-- R28, R29, R50 to R52, R211: a step of the core alone never writes the lengths or MSG_IN, writes SAMPLE only in the
write phase and only the byte WIDX, and OUT only in the scan and only the entry K. -/
def Obligations.CoreStepsWriteOnlyTheirOwn : Prop :=
  ∀ s t : State, s.hostProgram = [] → step s = .next t →
    t.bufLen = s.bufLen ∧ t.msgLen = s.msgLen ∧ t.msgIn = s.msgIn ∧ t.received = s.received ∧
    (∀ a, t.sampleByte a ≠ s.sampleByte a → s.phase = .embWr ∧ a = s.widx ∧
      t.sampleByte a &&& 0xFE#8 = s.sampleByte a &&& 0xFE#8) ∧
    (∀ a, Memory.get? t.out a ≠ Memory.get? s.out a → s.phase = .extScan ∧ a = s.k)

/-- R59, R62: a host read changes nothing but what the host has read and its program. -/
def Obligations.HostReadsHaveNoSideEffect : Prop :=
  ∀ (s t : State) (w : Window) (off : Nat) (rest : List HostOp),
    (s.hostProgram = .access (.read32 w off) :: rest ∨ s.hostProgram = .access (.read8 w off) :: rest) →
    step s = .next t → ∃ d, t = { s with hostProgram := rest, received := d :: s.received }

/-- R50, R51, R59: host writes and reads of SAMPLE and MSG_IN within their capacity; beyond it there is no location
(the fault is the model's treatment of U4, log 9). -/
def Obligations.HostReachesSampleAndMessageEntries : Prop :=
  ∀ (s : State) (i : Nat) (rest : List HostOp), s.state ≠ .busy →
    (∀ v, s.hostProgram = .access (.write8 .sample i v) :: rest →
      step s = if i < Config.maxBuf then .next { s with hostProgram := rest, sample := Memory.set s.sample i v }
        else .fault .noSuchLocation) ∧
    (s.hostProgram = .access (.read8 .sample i) :: rest →
      step s = if i < Config.maxBuf then
          .next { s with hostProgram := rest, received := .byte (s.sampleByte i) :: s.received }
        else .fault .noSuchLocation) ∧
    (∀ v, s.hostProgram = .access (.write32 .message (4 * i) v) :: rest →
      step s = if i < Config.maxMsg then .next { s with hostProgram := rest, msgIn := Memory.set s.msgIn i v }
        else .fault .noSuchLocation) ∧
    (s.hostProgram = .access (.read32 .message (4 * i)) :: rest →
      step s = if i < Config.maxMsg then
          .next { s with hostProgram := rest, received := .word (s.msgEntry i) :: s.received }
        else .fault .noSuchLocation)

/-- R52: a host read of OUT gives the recovered character below OUT_LEN; elsewhere it gives a free value (U2, log 2);
at or above MAX_OUT there is no location (log 9). -/
def Obligations.HostReadsOfOutByOutLen : Prop :=
  ∀ (s : State) (k : Nat) (rest : List HostOp), s.state ≠ .busy →
    s.hostProgram = .access (.read8 .output k) :: rest →
    (∀ c, k < s.outLen.toNat → Memory.get? s.out k = some c →
      step s = if k < Config.maxOut then .next { s with hostProgram := rest, received := .byte c :: s.received }
        else .fault .noSuchLocation) ∧
    (s.outLen.toNat ≤ k →
      step s = if k < Config.maxOut then
          .next { s with hostProgram := rest, received := .byte (Config.unspecifiedOut s.epoch k) :: s.received }
        else .fault .noSuchLocation)

/-- R63 (the bases by log 4, the sizes by log 3): the sizes of the four windows, that no byte address is in two of
them, and that every legal access stays in its window. -/
def Obligations.WindowsDoNotOverlap : Prop :=
  Config.size .registers = 16 * 4 ∧ Config.size .sample = Config.maxBuf ∧
  Config.size .message = 4 * Config.maxMsg ∧ Config.size .output = Config.maxOut ∧
  (∀ (v w : Window) (i j : Nat), v ≠ w → i < Config.size v → j < Config.size w →
    Config.base v + i ≠ Config.base w + j) ∧
  (∀ (a : Access) (f : AccessForm), a.kind = .form f → ∀ i < a.bytes,
    Config.base a.window ≤ a.address + i ∧ a.address + i < Config.base a.window + Config.size a.window)

/-- R59, the model's treatment of U4 (log 9): the access forms outside R59 are refused by name at any time. -/
def Obligations.OtherAccessFormsAreRefused : Prop :=
  ∀ (s : State) (a : Access) (rest : List HostOp), s.hostProgram = .access a :: rest →
    (∀ off v, a = .read8 .registers off ∨ a = .write8 .registers off v ∨ a = .read8 .message off ∨
        a = .write8 .message off v ∨ a = .write8 .output off v → step s = .refused .accessForm) ∧
    (∀ off v, a = .read32 .sample off ∨ a = .write32 .sample off v ∨ a = .read32 .output off ∨
        a = .write32 .output off v → step s = .refused .accessForm) ∧
    (∀ off v, off % 4 ≠ 0 → a = .read32 .registers off ∨ a = .write32 .registers off v ∨ a = .read32 .message off ∨
        a = .write32 .message off v → step s = .refused .accessForm)

/-! ## spec/10_state.md: the register window -/

/-- R24 to R32: what a host read of slot n returns while STATE is not BUSY, at the address REG_BASE + 4*n (R23). -/
def Obligations.RegisterReadsReturnTheirSlot : Prop :=
  ∀ (s : State) (n : Nat) (rest : List HostOp), n < 16 → s.state ≠ .busy →
    s.hostProgram = .access (.read32 .registers (4 * n)) :: rest →
    (Access.read32 .registers (4 * n)).address = Config.base .registers + 4 * n ∧
    step s = .next
      { s with
        hostProgram := rest
        received := .word (
          if n = 1 then (if s.state = .idle then 0#32 else if s.state = .done then 2#32 else 3#32)
          else if n = 2 then s.errCode.code.setWidth 32
          else if n = 3 then s.errInfo
          else if n = 4 then s.bufLen
          else if n = 5 then s.msgLen
          else if n = 6 then s.bitsLen
          else if n = 7 then s.outLen
          else 0#32) :: s.received }

/-- R33 and R265: while STATE = BUSY the host may read STATUS, which returns 1 and changes nothing; any other host
access has no next state (U4, log 8). -/
def Obligations.OnlyStatusIsReadWhileBusy : Prop :=
  ∀ (s : State) (a : Access) (rest : List HostOp), s.state = .busy → s.hostProgram = .access a :: rest →
    (a = .read32 .registers 4 →
      step s = .next { s with hostProgram := rest, received := .word 1#32 :: s.received }) ∧
    (a ≠ .read32 .registers 4 → ∀ t, step s ≠ .next t)

/-- R32: while STATE is not BUSY a host read of slots 8 to 15 returns 0, and a host write of them has no effect; the
reserved bits of STATUS and ERR_CODE read 0. The read-only slots ignore writes too (R25 to R27, R30, R31). -/
def Obligations.ReservedAndReadOnlySlots : Prop :=
  ∀ (s : State) (n : Nat) (v : Word) (rest : List HostOp), n < 16 →
    s.readSlot .status >>> 2 = 0#32 ∧ s.readSlot .errCode >>> 3 = 0#32 ∧
    (s.state ≠ .busy → 8 ≤ n → s.hostProgram = .access (.read32 .registers (4 * n)) :: rest →
      step s = .next { s with hostProgram := rest, received := .word 0#32 :: s.received }) ∧
    (s.state ≠ .busy → n ≠ 0 → n ≠ 4 → n ≠ 5 → s.hostProgram = .access (.write32 .registers (4 * n) v) :: rest →
      step s = .next { s with hostProgram := rest })

/-- R28 and R29: the host's write of a length takes a legal value; a larger one is refused by name (U4, log 9). -/
def Obligations.LengthRegistersTakeLegalValues : Prop :=
  ∀ (s : State) (v : Word) (rest : List HostOp), s.state ≠ .busy →
    (s.hostProgram = opWr .bufLen v :: rest →
      step s = if v.toNat ≤ Config.maxBuf then .next { s with hostProgram := rest, bufLen := v }
        else .refused .lengthAboveCapacity) ∧
    (s.hostProgram = opWr .msgLen v :: rest →
      step s = if v.toNat ≤ Config.maxMsg then .next { s with hostProgram := rest, msgLen := v }
        else .refused .lengthAboveCapacity)

/-- R85 and R214: POLL ends with the STATUS word of DONE or ERROR once the command has ended; until then the core
moves and the host has neither gone on nor recorded a read (log 7). -/
def Obligations.PollEndsWhenTheCommandHasEnded : Prop :=
  ∀ (s : State) (rest : List HostOp), s.hostProgram = .poll :: rest →
    (s.state = .done → step s = .next { s with hostProgram := rest, received := .word 2#32 :: s.received }) ∧
    (s.state = .error → step s = .next { s with hostProgram := rest, received := .word 3#32 :: s.received }) ∧
    (s.state = .idle ∨ s.state = .busy →
      ∃ t, step s = .next t ∧ t.hostProgram = s.hostProgram ∧ t.received = s.received)

/-- The step runs the decoded instruction: the token at POS of the stream that remains (R180, R205), also while the
host waits, and the command of a CMD write (R24, R82), the operation taken off the host's program (log 6). -/
def Obligations.StepRunsTheDecodedInstruction : Prop :=
  ∀ s : State,
    (∀ i bits, s.phase = .extScan → decode (.stream (slice s.lsbBit s.pos s.remaining)) = .instr i bits →
      (s.hostProgram = [] → step s = exec i s) ∧
      (∀ rest, s.hostProgram = .wait :: rest → step s = exec i { s with hostProgram := rest }) ∧
      (∀ rest, s.hostProgram = .poll :: rest → s.state = .busy → step s = exec i s)) ∧
    (∀ v rest, s.state ≠ .busy → s.hostProgram = opWr .cmd v :: rest →
      step s = exec (decodeCommand v) { s with hostProgram := rest })

/-! ## spec/60_exceptions.md: errors -/

/-- R240 with R231: what the host reads after `raise E(info)`, and that nothing else is written. -/
def Obligations.ErrorEntryShowsTheError : Prop :=
  ∀ (s : State) (e : ErrCode) (info : Word),
    (s.raise e info).readSlot .status = 3#32 ∧
    (s.raise e info).readSlot .errCode =
      (if e = .noError then 0#32 else if e = .unsupportedCharacter then 1#32 else if e = .capacityExceeded then 2#32
        else if e = .invalidDigitValue then 3#32 else if e = .corruptStream then 4#32
        else if e = .terminatorNotFound then 5#32 else 6#32) ∧
    (s.raise e info).readSlot .errInfo = info ∧
    (s.raise e info).readSlot .bitsLen = 0#32 ∧ (s.raise e info).readSlot .outLen = 0#32 ∧
    (s.raise e info).phase = .idle ∧
    (∃ state errCode errInfo bitsLen outLen phase, s.raise e info =
      { s with
        state := state, errCode := errCode, errInfo := errInfo, bitsLen := bitsLen, outLen := outLen
        phase := phase })

/-- R242: the ERROR state persists until the next CMD write or a reset. -/
def Obligations.ErrorPersistsUntilCommandOrReset : Prop :=
  ∀ s t : State, s.Control → s.state = .error → step s = .next t →
    (∀ v rest, s.hostProgram ≠ .access (.write32 .registers 0 v) :: rest) →
    (∀ rest, s.hostProgram ≠ .reset :: rest) →
    t.state = .error ∧ t.errCode = s.errCode ∧ t.errInfo = s.errInfo

/-! ## spec/70_reset_and_hazards.md: reset -/

/-- R260: a reset at any time, during a command too, sets every register and hidden element to its reset value and
writes no memory; the state after power-up has the same values. That a reset is a host operation which keeps the
host's program and what it has read (log 6, log 10), and that it advances the counter `epoch` (log 2), is the model's
choice. -/
def Obligations.ResetSetsEveryRegister : Prop :=
  (∀ (s : State) (rest : List HostOp), s.hostProgram = .reset :: rest →
    step s = .next
      { state := .idle, errCode := .noError, errInfo := 0#32, bufLen := 0#32, msgLen := 0#32, bitsLen := 0#32
        outLen := 0#32, sample := s.sample, msgIn := s.msgIn, out := s.out, phase := .idle, pos := 0, k := 0
        bits := [], widx := 0, hostProgram := rest, received := s.received, epoch := s.epoch + 1 }) ∧
  State.reset.state = .idle ∧ State.reset.errCode = .noError ∧ State.reset.errInfo = 0#32 ∧
  State.reset.bufLen = 0#32 ∧ State.reset.msgLen = 0#32 ∧ State.reset.bitsLen = 0#32 ∧ State.reset.outLen = 0#32 ∧
  State.reset.phase = .idle ∧ State.reset.pos = 0 ∧ State.reset.k = 0 ∧ State.reset.bits = [] ∧ State.reset.widx = 0

/-- R261 with the ascending order of R135: a reset after n bytes of the write phase leaves the bytes below n with
their new bit and the others as they were. -/
def Obligations.ResetInTheWritePhaseKeepsTheWrittenBytes : Prop :=
  ∀ (s : State) (n : Nat) (rest : List HostOp), s.phase = .embWr → s.widx = 0 → n ≤ s.bits.length →
    s.hostProgram = List.replicate n .wait ++ .reset :: rest →
    ∃ t, Host.Core.run Sys2Proof.core (n + 1) s = .next t ∧ t.state = .idle ∧ t.hostProgram = rest ∧
      ∀ i, t.sampleByte i =
        if i < n then mergeLsb (s.sampleByte i) (s.bits.getD i false) else s.sampleByte i

/-! ## The invariants -/

/-- Every step keeps the canonical form of every memory. -/
def Obligations.StepKeepsMemoryForm : Prop :=
  ∀ s t : State, s.MemoryForm → step s = .next t → t.MemoryForm

/-- R26, R27, R30, R31, R34: every step keeps the agreement of STATE with PHASE, ERR_CODE, ERR_INFO, BITS_LEN and
OUT_LEN. -/
def Obligations.StepKeepsControl : Prop :=
  ∀ s t : State, s.Control → step s = .next t → t.Control

/-- Every step keeps the whole invariant: memories, control, the bounds of R35 to R38, the recovered characters, and
the capacities. -/
def Obligations.StepKeepsTheInvariant : Prop :=
  ∀ s t : State, s.Inv → step s = .next t → t.Inv

/-- The state after reset meets the invariant. -/
def Obligations.ResetMeetsTheInvariant : Prop := State.reset.Inv

/-- R60 (derived there): no core access can fault: a step of the core alone always has a next state. -/
def Obligations.CoreNeverStops : Prop :=
  ∀ s : State, s.hostProgram = [] → ∃ t, step s = .next t
end

