-- ==== Sys2Proof/Laws/Memory.lean ====
section
/-!
SUPPORT. The laws of a list memory: reading after a write, the canonical form that every write keeps, and that two
canonical memories with the same contents are the same list.
-/

namespace Sys2Proof.Machine

variable {w : Nat}

theorem Memory.get?_set (m : Memory w) (a b : Nat) (v : BitVec w) :
    Memory.get? (Memory.set m a v) b = if b = a then some v else Memory.get? m b := by
  induction m with
  | nil => simp [Memory.set, Memory.get?]
  | cons e m ih =>
    obtain ⟨c, x⟩ := e
    simp only [Memory.set]
    split
    · simp [Memory.get?]
    · split
      · subst_vars
        by_cases h : b = c <;> simp [Memory.get?, h]
      · by_cases h : b = c
        · subst h
          have : b ≠ a := by omega
          simp [Memory.get?, this]
        · simp [Memory.get?, h, ih]

@[simp] theorem Memory.get?_set_self (m : Memory w) (a : Nat) (v : BitVec w) :
    Memory.get? (Memory.set m a v) a = some v := by simp [Memory.get?_set]

theorem Memory.get?_set_of_ne (m : Memory w) {a b : Nat} (v : BitVec w) (h : b ≠ a) :
    Memory.get? (Memory.set m a v) b = Memory.get? m b := by simp [Memory.get?_set, h]

/-- A write lists no location but its own. -/
theorem Memory.mem_set {m : Memory w} {a : Nat} {v : BitVec w} {e : Nat × BitVec w}
    (h : e ∈ Memory.set m a v) : e = (a, v) ∨ e ∈ m := by
  induction m with
  | nil => simpa [Memory.set] using h
  | cons c m ih =>
    obtain ⟨c, x⟩ := c
    simp only [Memory.set] at h
    split at h
    · simpa using h
    · split at h
      · rcases List.mem_cons.1 h with h | h
        · exact .inl h
        · exact .inr (List.mem_cons_of_mem _ h)
      · rcases List.mem_cons.1 h with h | h
        · exact .inr (by simp [h])
        · exact (ih h).imp id (List.mem_cons_of_mem _)

theorem Memory.wf_cons {c : Nat} {x : BitVec w} {m : Memory w} :
    Memory.wf ((c, x) :: m) ↔ (∀ e ∈ m, c < e.1) ∧ Memory.wf m := by
  simp [Memory.wf]

/-- Every write keeps the canonical form. -/
theorem Memory.wf_set {m : Memory w} (h : Memory.wf m) (a : Nat) (v : BitVec w) : Memory.wf (Memory.set m a v) := by
  induction m with
  | nil => simp [Memory.set, Memory.wf]
  | cons c m ih =>
    obtain ⟨c, x⟩ := c
    obtain ⟨hc, hm⟩ := Memory.wf_cons.1 h
    simp only [Memory.set]
    split
    · rename_i hac
      refine Memory.wf_cons.2 ⟨?_, h⟩
      intro e he
      rcases List.mem_cons.1 he with rfl | he
      · exact hac
      · exact hac.trans (hc e he)
    · split
      · subst_vars
        exact Memory.wf_cons.2 ⟨hc, hm⟩
      · refine Memory.wf_cons.2 ⟨?_, ih hm⟩
        intro e he
        rcases Memory.mem_set he with rfl | he
        · simp only
          omega
        · exact hc e he

theorem Memory.get?_eq_none_of_lt {m : Memory w} {a : Nat} (h : ∀ e ∈ m, a < e.1) : Memory.get? m a = none := by
  induction m with
  | nil => rfl
  | cons c m ih =>
    have hc := h c (by simp)
    have : a ≠ c.1 := by omega
    simp [Memory.get?, this, ih (fun e he => h e (List.mem_cons_of_mem _ he))]

/-- Equal contents are equal data. -/
theorem Memory.ext {m n : Memory w} (hm : Memory.wf m) (hn : Memory.wf n)
    (h : ∀ a, Memory.get? m a = Memory.get? n a) : m = n := by
  induction m generalizing n with
  | nil =>
    cases n with
    | nil => rfl
    | cons d n => simpa [Memory.get?] using h d.1
  | cons c m ih =>
    cases n with
    | nil => simpa [Memory.get?] using h c.1
    | cons d n =>
      obtain ⟨c, x⟩ := c
      obtain ⟨d, y⟩ := d
      obtain ⟨hcm, hm'⟩ := Memory.wf_cons.1 hm
      obtain ⟨hdn, hn'⟩ := Memory.wf_cons.1 hn
      have hcd : c = d := by
        rcases Nat.lt_trichotomy c d with hlt | heq | hgt
        · have h1 := h c
          have : Memory.get? n c = none := Memory.get?_eq_none_of_lt fun e he => hlt.trans (hdn e he)
          simp [Memory.get?, this, hlt.ne] at h1
        · exact heq
        · have h1 := h d
          have : Memory.get? m d = none := Memory.get?_eq_none_of_lt fun e he => hgt.trans (hcm e he)
          simp [Memory.get?, this, hgt.ne] at h1
      subst hcd
      have hx : x = y := by simpa [Memory.get?] using h c
      subst hx
      refine congrArg _ (ih hm' hn' fun a => ?_)
      by_cases hac : a = c
      · subst hac
        rw [Memory.get?_eq_none_of_lt hcm, Memory.get?_eq_none_of_lt hdn]
      · simpa [Memory.get?, hac] using h a

/-- Writing what a location has already leaves the memory as it is. -/
theorem Memory.set_eq_self {m : Memory w} (hm : Memory.wf m) {a : Nat} {v : BitVec w}
    (h : Memory.get? m a = some v) : Memory.set m a v = m := by
  refine Memory.ext (Memory.wf_set hm a v) hm fun b => ?_
  rw [Memory.get?_set]
  split
  · subst_vars
    exact h.symm
  · rfl

/-- `SAMPLE[j]` after a write of `SAMPLE[i]`. -/
theorem State.sampleByte_setSample (s : State) (i j : Nat) (v : Byte) :
    (s.setSample i v).sampleByte j = if j = i then v else s.sampleByte j := by
  by_cases h : j = i <;> simp [State.sampleByte, State.setSample, Memory.get?_set, h]

/-- `MSG_IN[j]` after a write of `MSG_IN[k]`. -/
theorem State.msgEntry_setMsg (s : State) (k j : Nat) (v : Word) :
    (s.setMsg k v).msgEntry j = if j = k then v else s.msgEntry j := by
  by_cases h : j = k <;> simp [State.msgEntry, State.setMsg, Memory.get?_set, h]

/-- The state after power-up has canonical memories. -/
theorem State.reset_memories_wf :
    Memory.wf State.reset.sample ∧ Memory.wf State.reset.msgIn ∧ Memory.wf State.reset.out := by decide

end Sys2Proof.Machine
end

