-- ==== Sys2Proof/Laws/Codec.lean ====
section
/-!
SUPPORT. The laws of bit sequences, patterns and sample bits: lengths, and `val` and `bin` as inverses
(spec/00_scope.md R10).
-/

namespace Sys2Proof

@[simp] theorem length_bin (n v : Nat) : (bin n v).length = n := by
  induction n with
  | zero => rfl
  | succ n ih => simp [bin, ih]

theorem valueOf_foldl (s : Bits) (a : Nat) :
    s.foldl (fun acc b => 2 * acc + b.toNat) a = a * 2 ^ s.length + valueOf s := by
  induction s generalizing a with
  | nil => simp [valueOf]
  | cons b s ih =>
    rw [valueOf, List.foldl_cons, List.foldl_cons, ih, ih (2 * 0 + b.toNat), List.length_cons, pow_succ]
    ring

theorem valueOf_cons (b : Bool) (s : Bits) : valueOf (b :: s) = b.toNat * 2 ^ s.length + valueOf s := by
  rw [valueOf, List.foldl_cons, valueOf_foldl]
  simp

theorem valueOf_lt (s : Bits) : valueOf s < 2 ^ s.length := by
  induction s with
  | nil => simp [valueOf]
  | cons b s ih =>
    rw [valueOf_cons, List.length_cons, pow_succ]
    cases b <;> simp <;> omega

/-- Reading back the `n`-bit sequence of a number below `2^n`. -/
theorem valueOf_bin (n v : Nat) : valueOf (bin n v) = v % 2 ^ n := by
  induction n with
  | zero => simp [bin, valueOf, Nat.mod_one]
  | succ n ih =>
    rw [bin, valueOf_cons, length_bin, ih, Nat.mod_pow_succ, Nat.testBit, Nat.shiftRight_eq_div_pow]
    have h : v / 2 ^ n % 2 = 0 ∨ v / 2 ^ n % 2 = 1 := by omega
    rcases h with h | h
    · simp [h]
    · simp [h]
      omega

/-- Writing again the value of an `n`-bit sequence. -/
theorem bin_valueOf (s : Bits) : bin s.length (valueOf s) = s := by
  suffices h : ∀ (s : Bits) (k : Nat), bin s.length (k * 2 ^ s.length + valueOf s) = s by
    simpa using h s 0
  intro s
  induction s with
  | nil => intro k; rfl
  | cons b s ih =>
    intro k
    have hlt := valueOf_lt s
    have hsum : k * 2 ^ (s.length + 1) + (b.toNat * 2 ^ s.length + valueOf s)
        = (k * 2 + b.toNat) * 2 ^ s.length + valueOf s := by rw [pow_succ]; ring
    rw [List.length_cons, bin, valueOf_cons, hsum, ih]
    congr 1
    rw [Nat.testBit, Nat.shiftRight_eq_div_pow, Nat.add_comm, Nat.add_mul_div_right _ _ (Nat.two_pow_pos _),
      Nat.div_eq_of_lt hlt]
    cases b <;> simp

end Sys2Proof

namespace Sys2Proof.Machine

@[simp] theorem length_slice (b : Nat → Bool) (p n : Nat) : (slice b p n).length = n := by simp [slice]

theorem getElem?_slice (b : Nat → Bool) (p n j : Nat) :
    (slice b p n)[j]? = if j < n then some (b (p + j)) else none := by
  by_cases h : j < n <;> simp [slice, h]

theorem slice_succ (b : Nat → Bool) (p n : Nat) : slice b p (n + 1) = b p :: slice b (p + 1) n := by
  refine List.ext_getElem? fun j => ?_
  cases j with
  | zero => rw [getElem?_slice]; simp
  | succ j =>
    rw [getElem?_slice, List.getElem?_cons_succ, getElem?_slice]
    simp [Nat.add_comm, Nat.add_left_comm]

@[simp] theorem slice_zero (b : Nat → Bool) (p : Nat) : slice b p 0 = [] := rfl

theorem take_slice (b : Nat → Bool) (p n k : Nat) : (slice b p n).take k = slice b p (min k n) := by
  refine List.ext_getElem? fun j => ?_
  simp only [List.getElem?_take, getElem?_slice]
  by_cases h : j < k <;> by_cases h' : j < n <;> simp [h, h']

/-- The window of the scan is the start of the stream that remains at POS. -/
theorem scanWindow_eq_take (s : State) : s.scanWindow = (slice s.lsbBit s.pos s.remaining).take 8 := by
  rw [take_slice, State.scanWindow]

/-- Bit 0 of a merged byte is the bit. -/
@[simp] theorem lsbOf_mergeLsb (v : Byte) (b : Bool) : lsbOf (mergeLsb v b) = b := by
  cases b <;> simp [lsbOf, mergeLsb]

/-- Bits 7:1 of a merged byte are those of the byte. -/
@[simp] theorem mergeLsb_and_fe (v : Byte) (b : Bool) : mergeLsb v b &&& 0xFE#8 = v &&& 0xFE#8 := by
  revert v b
  decide

/-- `SAMPLE[j]` after the read-modify-write of `SAMPLE[i]`. -/
theorem State.sampleByte_packBit (s : State) (i j : Nat) (b : Bool) :
    (s.packBit i b).sampleByte j = if j = i then mergeLsb (s.sampleByte i) b else s.sampleByte j := by
  by_cases h : j = i <;> simp [State.packBit, State.sampleByte_setSample, h]

end Sys2Proof.Machine
end

