-- ==== Sys2Proof/Laws/Config.lean ====
section
/-!
SUPPORT. The address map: the windows as a list, and that the bases keep them apart.
-/

namespace Sys2Proof

@[simp] theorem Window.mem_all (w : Window) : w ∈ Window.all := by cases w <;> decide

theorem Config.stacked_apart : Config.Apart Config.stacked := by
  intro v _ w _ hvw i hi j hj
  cases v <;> cases w <;> first
    | exact absurd rfl hvw
    | (simp only [Config.stacked] at *; omega)

theorem Config.base_apart : Config.Apart Config.base := by
  by_cases h : Config.Apart Config.placement
  · have hb : Config.base = Config.placement := funext fun w => if_pos h
    rwa [hb]
  · have hb : Config.base = Config.stacked := funext fun w => if_neg h
    rw [hb]
    exact Config.stacked_apart

end Sys2Proof
end

