-- ==== Sys2Proof/Laws/PerInstr.lean ====
section
/-!
SUPPORT. Statements about every instruction as syntax: the width of its encoding (spec/30_encoding.md R71, R83).
-/

namespace Sys2Proof.Laws.EncodedWidth

open Sys2Proof

/-- How many bits an instruction has, by the tables of R71 and R83. -/
def bitsOf : Instr → Nat
  | .term => 8
  | .digit _ => 5
  | .upper _ => 7
  | .lower _ => 7
  | .embed => 32
  | .extract => 32
  | .illegal _ => 32

/-- The encoder gives an instruction as many bits as the tables do. -/
def Statement (i : Instr) : Prop := (encode i).width = bitsOf i

theorem term : Statement .term := rfl
theorem digit (d : BitVec 4) : Statement (.digit d) := rfl
theorem upper (o : BitVec 5) : Statement (.upper o) := rfl
theorem lower (o : BitVec 5) : Statement (.lower o) := rfl
theorem embed : Statement .embed := rfl
theorem extract : Statement .extract := rfl
theorem illegal (v : Word) : Statement (.illegal v) := rfl

end Sys2Proof.Laws.EncodedWidth
end

