-- ==== Sys2Proof/Laws/State.lean ====
section
/-!
SUPPORT. One lemma per field for each update of the state, so that no proof unfolds a record update.
-/

namespace Sys2Proof.Machine

variable (s : State)

@[simp] theorem State.setSample_state (i : Nat) (v : Byte) : (s.setSample i v).state = s.state := rfl
@[simp] theorem State.setSample_errCode (i : Nat) (v : Byte) : (s.setSample i v).errCode = s.errCode := rfl
@[simp] theorem State.setSample_errInfo (i : Nat) (v : Byte) : (s.setSample i v).errInfo = s.errInfo := rfl
@[simp] theorem State.setSample_bufLen (i : Nat) (v : Byte) : (s.setSample i v).bufLen = s.bufLen := rfl
@[simp] theorem State.setSample_msgLen (i : Nat) (v : Byte) : (s.setSample i v).msgLen = s.msgLen := rfl
@[simp] theorem State.setSample_bitsLen (i : Nat) (v : Byte) : (s.setSample i v).bitsLen = s.bitsLen := rfl
@[simp] theorem State.setSample_outLen (i : Nat) (v : Byte) : (s.setSample i v).outLen = s.outLen := rfl
@[simp] theorem State.setSample_sample (i : Nat) (v : Byte) : (s.setSample i v).sample = Memory.set s.sample i v := rfl
@[simp] theorem State.setSample_msgIn (i : Nat) (v : Byte) : (s.setSample i v).msgIn = s.msgIn := rfl
@[simp] theorem State.setSample_out (i : Nat) (v : Byte) : (s.setSample i v).out = s.out := rfl
@[simp] theorem State.setSample_phase (i : Nat) (v : Byte) : (s.setSample i v).phase = s.phase := rfl
@[simp] theorem State.setSample_pos (i : Nat) (v : Byte) : (s.setSample i v).pos = s.pos := rfl
@[simp] theorem State.setSample_k (i : Nat) (v : Byte) : (s.setSample i v).k = s.k := rfl
@[simp] theorem State.setSample_bits (i : Nat) (v : Byte) : (s.setSample i v).bits = s.bits := rfl
@[simp] theorem State.setSample_widx (i : Nat) (v : Byte) : (s.setSample i v).widx = s.widx := rfl
@[simp] theorem State.setSample_hostProgram (i : Nat) (v : Byte) : (s.setSample i v).hostProgram = s.hostProgram := rfl
@[simp] theorem State.setSample_received (i : Nat) (v : Byte) : (s.setSample i v).received = s.received := rfl
@[simp] theorem State.setSample_epoch (i : Nat) (v : Byte) : (s.setSample i v).epoch = s.epoch := rfl

@[simp] theorem State.setMsg_state (i : Nat) (v : Word) : (s.setMsg i v).state = s.state := rfl
@[simp] theorem State.setMsg_errCode (i : Nat) (v : Word) : (s.setMsg i v).errCode = s.errCode := rfl
@[simp] theorem State.setMsg_errInfo (i : Nat) (v : Word) : (s.setMsg i v).errInfo = s.errInfo := rfl
@[simp] theorem State.setMsg_bufLen (i : Nat) (v : Word) : (s.setMsg i v).bufLen = s.bufLen := rfl
@[simp] theorem State.setMsg_msgLen (i : Nat) (v : Word) : (s.setMsg i v).msgLen = s.msgLen := rfl
@[simp] theorem State.setMsg_bitsLen (i : Nat) (v : Word) : (s.setMsg i v).bitsLen = s.bitsLen := rfl
@[simp] theorem State.setMsg_outLen (i : Nat) (v : Word) : (s.setMsg i v).outLen = s.outLen := rfl
@[simp] theorem State.setMsg_sample (i : Nat) (v : Word) : (s.setMsg i v).sample = s.sample := rfl
@[simp] theorem State.setMsg_msgIn (i : Nat) (v : Word) : (s.setMsg i v).msgIn = Memory.set s.msgIn i v := rfl
@[simp] theorem State.setMsg_out (i : Nat) (v : Word) : (s.setMsg i v).out = s.out := rfl
@[simp] theorem State.setMsg_phase (i : Nat) (v : Word) : (s.setMsg i v).phase = s.phase := rfl
@[simp] theorem State.setMsg_pos (i : Nat) (v : Word) : (s.setMsg i v).pos = s.pos := rfl
@[simp] theorem State.setMsg_k (i : Nat) (v : Word) : (s.setMsg i v).k = s.k := rfl
@[simp] theorem State.setMsg_bits (i : Nat) (v : Word) : (s.setMsg i v).bits = s.bits := rfl
@[simp] theorem State.setMsg_widx (i : Nat) (v : Word) : (s.setMsg i v).widx = s.widx := rfl
@[simp] theorem State.setMsg_hostProgram (i : Nat) (v : Word) : (s.setMsg i v).hostProgram = s.hostProgram := rfl
@[simp] theorem State.setMsg_received (i : Nat) (v : Word) : (s.setMsg i v).received = s.received := rfl
@[simp] theorem State.setMsg_epoch (i : Nat) (v : Word) : (s.setMsg i v).epoch = s.epoch := rfl

@[simp] theorem State.setOut_state (i : Nat) (v : Byte) : (s.setOut i v).state = s.state := rfl
@[simp] theorem State.setOut_errCode (i : Nat) (v : Byte) : (s.setOut i v).errCode = s.errCode := rfl
@[simp] theorem State.setOut_errInfo (i : Nat) (v : Byte) : (s.setOut i v).errInfo = s.errInfo := rfl
@[simp] theorem State.setOut_bufLen (i : Nat) (v : Byte) : (s.setOut i v).bufLen = s.bufLen := rfl
@[simp] theorem State.setOut_msgLen (i : Nat) (v : Byte) : (s.setOut i v).msgLen = s.msgLen := rfl
@[simp] theorem State.setOut_bitsLen (i : Nat) (v : Byte) : (s.setOut i v).bitsLen = s.bitsLen := rfl
@[simp] theorem State.setOut_outLen (i : Nat) (v : Byte) : (s.setOut i v).outLen = s.outLen := rfl
@[simp] theorem State.setOut_sample (i : Nat) (v : Byte) : (s.setOut i v).sample = s.sample := rfl
@[simp] theorem State.setOut_msgIn (i : Nat) (v : Byte) : (s.setOut i v).msgIn = s.msgIn := rfl
@[simp] theorem State.setOut_out (i : Nat) (v : Byte) : (s.setOut i v).out = Memory.set s.out i v := rfl
@[simp] theorem State.setOut_phase (i : Nat) (v : Byte) : (s.setOut i v).phase = s.phase := rfl
@[simp] theorem State.setOut_pos (i : Nat) (v : Byte) : (s.setOut i v).pos = s.pos := rfl
@[simp] theorem State.setOut_k (i : Nat) (v : Byte) : (s.setOut i v).k = s.k := rfl
@[simp] theorem State.setOut_bits (i : Nat) (v : Byte) : (s.setOut i v).bits = s.bits := rfl
@[simp] theorem State.setOut_widx (i : Nat) (v : Byte) : (s.setOut i v).widx = s.widx := rfl
@[simp] theorem State.setOut_hostProgram (i : Nat) (v : Byte) : (s.setOut i v).hostProgram = s.hostProgram := rfl
@[simp] theorem State.setOut_received (i : Nat) (v : Byte) : (s.setOut i v).received = s.received := rfl
@[simp] theorem State.setOut_epoch (i : Nat) (v : Byte) : (s.setOut i v).epoch = s.epoch := rfl

@[simp] theorem State.raise_state (e : ErrCode) (info : Word) : (s.raise e info).state = .error := rfl
@[simp] theorem State.raise_errCode (e : ErrCode) (info : Word) : (s.raise e info).errCode = e := rfl
@[simp] theorem State.raise_errInfo (e : ErrCode) (info : Word) : (s.raise e info).errInfo = info := rfl
@[simp] theorem State.raise_bufLen (e : ErrCode) (info : Word) : (s.raise e info).bufLen = s.bufLen := rfl
@[simp] theorem State.raise_msgLen (e : ErrCode) (info : Word) : (s.raise e info).msgLen = s.msgLen := rfl
@[simp] theorem State.raise_bitsLen (e : ErrCode) (info : Word) : (s.raise e info).bitsLen = 0#32 := rfl
@[simp] theorem State.raise_outLen (e : ErrCode) (info : Word) : (s.raise e info).outLen = 0#32 := rfl
@[simp] theorem State.raise_sample (e : ErrCode) (info : Word) : (s.raise e info).sample = s.sample := rfl
@[simp] theorem State.raise_msgIn (e : ErrCode) (info : Word) : (s.raise e info).msgIn = s.msgIn := rfl
@[simp] theorem State.raise_out (e : ErrCode) (info : Word) : (s.raise e info).out = s.out := rfl
@[simp] theorem State.raise_phase (e : ErrCode) (info : Word) : (s.raise e info).phase = .idle := rfl
@[simp] theorem State.raise_pos (e : ErrCode) (info : Word) : (s.raise e info).pos = s.pos := rfl
@[simp] theorem State.raise_k (e : ErrCode) (info : Word) : (s.raise e info).k = s.k := rfl
@[simp] theorem State.raise_bits (e : ErrCode) (info : Word) : (s.raise e info).bits = s.bits := rfl
@[simp] theorem State.raise_widx (e : ErrCode) (info : Word) : (s.raise e info).widx = s.widx := rfl
@[simp] theorem State.raise_hostProgram (e : ErrCode) (info : Word) : (s.raise e info).hostProgram = s.hostProgram := rfl
@[simp] theorem State.raise_received (e : ErrCode) (info : Word) : (s.raise e info).received = s.received := rfl
@[simp] theorem State.raise_epoch (e : ErrCode) (info : Word) : (s.raise e info).epoch = s.epoch := rfl

@[simp] theorem State.finishOk_state : s.finishOk.state = .done := rfl
@[simp] theorem State.finishOk_errCode : s.finishOk.errCode = s.errCode := rfl
@[simp] theorem State.finishOk_errInfo : s.finishOk.errInfo = s.errInfo := rfl
@[simp] theorem State.finishOk_bufLen : s.finishOk.bufLen = s.bufLen := rfl
@[simp] theorem State.finishOk_msgLen : s.finishOk.msgLen = s.msgLen := rfl
@[simp] theorem State.finishOk_bitsLen : s.finishOk.bitsLen = s.bitsLen := rfl
@[simp] theorem State.finishOk_outLen : s.finishOk.outLen = s.outLen := rfl
@[simp] theorem State.finishOk_sample : s.finishOk.sample = s.sample := rfl
@[simp] theorem State.finishOk_msgIn : s.finishOk.msgIn = s.msgIn := rfl
@[simp] theorem State.finishOk_out : s.finishOk.out = s.out := rfl
@[simp] theorem State.finishOk_phase : s.finishOk.phase = .idle := rfl
@[simp] theorem State.finishOk_pos : s.finishOk.pos = s.pos := rfl
@[simp] theorem State.finishOk_k : s.finishOk.k = s.k := rfl
@[simp] theorem State.finishOk_bits : s.finishOk.bits = s.bits := rfl
@[simp] theorem State.finishOk_widx : s.finishOk.widx = s.widx := rfl
@[simp] theorem State.finishOk_hostProgram : s.finishOk.hostProgram = s.hostProgram := rfl
@[simp] theorem State.finishOk_received : s.finishOk.received = s.received := rfl
@[simp] theorem State.finishOk_epoch : s.finishOk.epoch = s.epoch := rfl

@[simp] theorem State.start_state (p : Phase) : (s.start p).state = .busy := rfl
@[simp] theorem State.start_errCode (p : Phase) : (s.start p).errCode = .noError := rfl
@[simp] theorem State.start_errInfo (p : Phase) : (s.start p).errInfo = 0#32 := rfl
@[simp] theorem State.start_bufLen (p : Phase) : (s.start p).bufLen = s.bufLen := rfl
@[simp] theorem State.start_msgLen (p : Phase) : (s.start p).msgLen = s.msgLen := rfl
@[simp] theorem State.start_bitsLen (p : Phase) : (s.start p).bitsLen = 0#32 := rfl
@[simp] theorem State.start_outLen (p : Phase) : (s.start p).outLen = 0#32 := rfl
@[simp] theorem State.start_sample (p : Phase) : (s.start p).sample = s.sample := rfl
@[simp] theorem State.start_msgIn (p : Phase) : (s.start p).msgIn = s.msgIn := rfl
@[simp] theorem State.start_out (p : Phase) : (s.start p).out = s.out := rfl
@[simp] theorem State.start_phase (p : Phase) : (s.start p).phase = p := rfl
@[simp] theorem State.start_pos (p : Phase) : (s.start p).pos = 0 := rfl
@[simp] theorem State.start_k (p : Phase) : (s.start p).k = 0 := rfl
@[simp] theorem State.start_bits (p : Phase) : (s.start p).bits = [] := rfl
@[simp] theorem State.start_widx (p : Phase) : (s.start p).widx = 0 := rfl
@[simp] theorem State.start_hostProgram (p : Phase) : (s.start p).hostProgram = s.hostProgram := rfl
@[simp] theorem State.start_received (p : Phase) : (s.start p).received = s.received := rfl
@[simp] theorem State.start_epoch (p : Phase) : (s.start p).epoch = s.epoch + 1 := rfl

@[simp] theorem State.applyReset_state : s.applyReset.state = .idle := rfl
@[simp] theorem State.applyReset_errCode : s.applyReset.errCode = .noError := rfl
@[simp] theorem State.applyReset_errInfo : s.applyReset.errInfo = 0#32 := rfl
@[simp] theorem State.applyReset_bufLen : s.applyReset.bufLen = 0#32 := rfl
@[simp] theorem State.applyReset_msgLen : s.applyReset.msgLen = 0#32 := rfl
@[simp] theorem State.applyReset_bitsLen : s.applyReset.bitsLen = 0#32 := rfl
@[simp] theorem State.applyReset_outLen : s.applyReset.outLen = 0#32 := rfl
@[simp] theorem State.applyReset_sample : s.applyReset.sample = s.sample := rfl
@[simp] theorem State.applyReset_msgIn : s.applyReset.msgIn = s.msgIn := rfl
@[simp] theorem State.applyReset_out : s.applyReset.out = s.out := rfl
@[simp] theorem State.applyReset_phase : s.applyReset.phase = .idle := rfl
@[simp] theorem State.applyReset_pos : s.applyReset.pos = 0 := rfl
@[simp] theorem State.applyReset_k : s.applyReset.k = 0 := rfl
@[simp] theorem State.applyReset_bits : s.applyReset.bits = [] := rfl
@[simp] theorem State.applyReset_widx : s.applyReset.widx = 0 := rfl
@[simp] theorem State.applyReset_hostProgram : s.applyReset.hostProgram = s.hostProgram := rfl
@[simp] theorem State.applyReset_received : s.applyReset.received = s.received := rfl
@[simp] theorem State.applyReset_epoch : s.applyReset.epoch = s.epoch + 1 := rfl

@[simp] theorem State.receive_state (d : HostData) : (s.receive d).state = s.state := rfl
@[simp] theorem State.receive_errCode (d : HostData) : (s.receive d).errCode = s.errCode := rfl
@[simp] theorem State.receive_errInfo (d : HostData) : (s.receive d).errInfo = s.errInfo := rfl
@[simp] theorem State.receive_bufLen (d : HostData) : (s.receive d).bufLen = s.bufLen := rfl
@[simp] theorem State.receive_msgLen (d : HostData) : (s.receive d).msgLen = s.msgLen := rfl
@[simp] theorem State.receive_bitsLen (d : HostData) : (s.receive d).bitsLen = s.bitsLen := rfl
@[simp] theorem State.receive_outLen (d : HostData) : (s.receive d).outLen = s.outLen := rfl
@[simp] theorem State.receive_sample (d : HostData) : (s.receive d).sample = s.sample := rfl
@[simp] theorem State.receive_msgIn (d : HostData) : (s.receive d).msgIn = s.msgIn := rfl
@[simp] theorem State.receive_out (d : HostData) : (s.receive d).out = s.out := rfl
@[simp] theorem State.receive_phase (d : HostData) : (s.receive d).phase = s.phase := rfl
@[simp] theorem State.receive_pos (d : HostData) : (s.receive d).pos = s.pos := rfl
@[simp] theorem State.receive_k (d : HostData) : (s.receive d).k = s.k := rfl
@[simp] theorem State.receive_bits (d : HostData) : (s.receive d).bits = s.bits := rfl
@[simp] theorem State.receive_widx (d : HostData) : (s.receive d).widx = s.widx := rfl
@[simp] theorem State.receive_hostProgram (d : HostData) : (s.receive d).hostProgram = s.hostProgram := rfl
@[simp] theorem State.receive_received (d : HostData) : (s.receive d).received = d :: s.received := rfl
@[simp] theorem State.receive_epoch (d : HostData) : (s.receive d).epoch = s.epoch := rfl

@[simp] theorem State.packBit_state (i : Nat) (b : Bool) : (s.packBit i b).state = s.state := rfl
@[simp] theorem State.packBit_errCode (i : Nat) (b : Bool) : (s.packBit i b).errCode = s.errCode := rfl
@[simp] theorem State.packBit_errInfo (i : Nat) (b : Bool) : (s.packBit i b).errInfo = s.errInfo := rfl
@[simp] theorem State.packBit_bufLen (i : Nat) (b : Bool) : (s.packBit i b).bufLen = s.bufLen := rfl
@[simp] theorem State.packBit_msgLen (i : Nat) (b : Bool) : (s.packBit i b).msgLen = s.msgLen := rfl
@[simp] theorem State.packBit_bitsLen (i : Nat) (b : Bool) : (s.packBit i b).bitsLen = s.bitsLen := rfl
@[simp] theorem State.packBit_outLen (i : Nat) (b : Bool) : (s.packBit i b).outLen = s.outLen := rfl
@[simp] theorem State.packBit_sample (i : Nat) (b : Bool) : (s.packBit i b).sample = Memory.set s.sample i (mergeLsb (s.sampleByte i) b) := rfl
@[simp] theorem State.packBit_msgIn (i : Nat) (b : Bool) : (s.packBit i b).msgIn = s.msgIn := rfl
@[simp] theorem State.packBit_out (i : Nat) (b : Bool) : (s.packBit i b).out = s.out := rfl
@[simp] theorem State.packBit_phase (i : Nat) (b : Bool) : (s.packBit i b).phase = s.phase := rfl
@[simp] theorem State.packBit_pos (i : Nat) (b : Bool) : (s.packBit i b).pos = s.pos := rfl
@[simp] theorem State.packBit_k (i : Nat) (b : Bool) : (s.packBit i b).k = s.k := rfl
@[simp] theorem State.packBit_bits (i : Nat) (b : Bool) : (s.packBit i b).bits = s.bits := rfl
@[simp] theorem State.packBit_widx (i : Nat) (b : Bool) : (s.packBit i b).widx = s.widx := rfl
@[simp] theorem State.packBit_hostProgram (i : Nat) (b : Bool) : (s.packBit i b).hostProgram = s.hostProgram := rfl
@[simp] theorem State.packBit_received (i : Nat) (b : Bool) : (s.packBit i b).received = s.received := rfl
@[simp] theorem State.packBit_epoch (i : Nat) (b : Bool) : (s.packBit i b).epoch = s.epoch := rfl

@[simp] theorem State.emit_state (c : Byte) (w : Nat) : (s.emit c w).state = s.state := rfl
@[simp] theorem State.emit_errCode (c : Byte) (w : Nat) : (s.emit c w).errCode = s.errCode := rfl
@[simp] theorem State.emit_errInfo (c : Byte) (w : Nat) : (s.emit c w).errInfo = s.errInfo := rfl
@[simp] theorem State.emit_bufLen (c : Byte) (w : Nat) : (s.emit c w).bufLen = s.bufLen := rfl
@[simp] theorem State.emit_msgLen (c : Byte) (w : Nat) : (s.emit c w).msgLen = s.msgLen := rfl
@[simp] theorem State.emit_bitsLen (c : Byte) (w : Nat) : (s.emit c w).bitsLen = s.bitsLen := rfl
@[simp] theorem State.emit_outLen (c : Byte) (w : Nat) : (s.emit c w).outLen = s.outLen := rfl
@[simp] theorem State.emit_sample (c : Byte) (w : Nat) : (s.emit c w).sample = s.sample := rfl
@[simp] theorem State.emit_msgIn (c : Byte) (w : Nat) : (s.emit c w).msgIn = s.msgIn := rfl
@[simp] theorem State.emit_out (c : Byte) (w : Nat) : (s.emit c w).out = Memory.set s.out s.k c := rfl
@[simp] theorem State.emit_phase (c : Byte) (w : Nat) : (s.emit c w).phase = s.phase := rfl
@[simp] theorem State.emit_pos (c : Byte) (w : Nat) : (s.emit c w).pos = s.pos + w := rfl
@[simp] theorem State.emit_k (c : Byte) (w : Nat) : (s.emit c w).k = s.k + 1 := rfl
@[simp] theorem State.emit_bits (c : Byte) (w : Nat) : (s.emit c w).bits = s.bits := rfl
@[simp] theorem State.emit_widx (c : Byte) (w : Nat) : (s.emit c w).widx = s.widx := rfl
@[simp] theorem State.emit_hostProgram (c : Byte) (w : Nat) : (s.emit c w).hostProgram = s.hostProgram := rfl
@[simp] theorem State.emit_received (c : Byte) (w : Nat) : (s.emit c w).received = s.received := rfl
@[simp] theorem State.emit_epoch (c : Byte) (w : Nat) : (s.emit c w).epoch = s.epoch := rfl

@[simp] theorem State.scanError_state (e : ErrCode) : (s.scanError e).state = .error := rfl
@[simp] theorem State.scanError_errCode (e : ErrCode) : (s.scanError e).errCode = e := rfl
@[simp] theorem State.scanError_errInfo (e : ErrCode) : (s.scanError e).errInfo = BitVec.ofNat 32 s.pos := rfl
@[simp] theorem State.scanError_bufLen (e : ErrCode) : (s.scanError e).bufLen = s.bufLen := rfl
@[simp] theorem State.scanError_msgLen (e : ErrCode) : (s.scanError e).msgLen = s.msgLen := rfl
@[simp] theorem State.scanError_bitsLen (e : ErrCode) : (s.scanError e).bitsLen = 0#32 := rfl
@[simp] theorem State.scanError_outLen (e : ErrCode) : (s.scanError e).outLen = 0#32 := rfl
@[simp] theorem State.scanError_sample (e : ErrCode) : (s.scanError e).sample = s.sample := rfl
@[simp] theorem State.scanError_msgIn (e : ErrCode) : (s.scanError e).msgIn = s.msgIn := rfl
@[simp] theorem State.scanError_out (e : ErrCode) : (s.scanError e).out = s.out := rfl
@[simp] theorem State.scanError_phase (e : ErrCode) : (s.scanError e).phase = .idle := rfl
@[simp] theorem State.scanError_pos (e : ErrCode) : (s.scanError e).pos = s.pos := rfl
@[simp] theorem State.scanError_k (e : ErrCode) : (s.scanError e).k = s.k := rfl
@[simp] theorem State.scanError_bits (e : ErrCode) : (s.scanError e).bits = s.bits := rfl
@[simp] theorem State.scanError_widx (e : ErrCode) : (s.scanError e).widx = s.widx := rfl
@[simp] theorem State.scanError_hostProgram (e : ErrCode) : (s.scanError e).hostProgram = s.hostProgram := rfl
@[simp] theorem State.scanError_received (e : ErrCode) : (s.scanError e).received = s.received := rfl
@[simp] theorem State.scanError_epoch (e : ErrCode) : (s.scanError e).epoch = s.epoch := rfl

@[simp] theorem State.scanDone_state : s.scanDone.state = .done := rfl
@[simp] theorem State.scanDone_errCode : s.scanDone.errCode = s.errCode := rfl
@[simp] theorem State.scanDone_errInfo : s.scanDone.errInfo = s.errInfo := rfl
@[simp] theorem State.scanDone_bufLen : s.scanDone.bufLen = s.bufLen := rfl
@[simp] theorem State.scanDone_msgLen : s.scanDone.msgLen = s.msgLen := rfl
@[simp] theorem State.scanDone_bitsLen : s.scanDone.bitsLen = BitVec.ofNat 32 (s.pos + 8) := rfl
@[simp] theorem State.scanDone_outLen : s.scanDone.outLen = BitVec.ofNat 32 s.k := rfl
@[simp] theorem State.scanDone_sample : s.scanDone.sample = s.sample := rfl
@[simp] theorem State.scanDone_msgIn : s.scanDone.msgIn = s.msgIn := rfl
@[simp] theorem State.scanDone_out : s.scanDone.out = s.out := rfl
@[simp] theorem State.scanDone_phase : s.scanDone.phase = .idle := rfl
@[simp] theorem State.scanDone_pos : s.scanDone.pos = s.pos := rfl
@[simp] theorem State.scanDone_k : s.scanDone.k = s.k := rfl
@[simp] theorem State.scanDone_bits : s.scanDone.bits = s.bits := rfl
@[simp] theorem State.scanDone_widx : s.scanDone.widx = s.widx := rfl
@[simp] theorem State.scanDone_hostProgram : s.scanDone.hostProgram = s.hostProgram := rfl
@[simp] theorem State.scanDone_received : s.scanDone.received = s.received := rfl
@[simp] theorem State.scanDone_epoch : s.scanDone.epoch = s.epoch := rfl

end Sys2Proof.Machine
end

