-- ==== Sys2Proof/Laws/Step.lean ====
section
/-!
SUPPORT. What each shared operation can do, and what one step can do, said once: later proofs cite `step_effect`
instead of unfolding the step.
-/

namespace Sys2Proof.Machine

/-- The scan step of a character token, by how it ends. -/
theorem decodeStep_cases {w : Nat} {ch : Option Byte} {bad : ErrCode} {s t : State}
    (h : decodeStep w ch bad s = .next t) :
    s.phase = .extScan ∧
      ((s.remaining < w ∧ t = s.scanError .terminatorNotFound) ∨
       (w ≤ s.remaining ∧ ∃ c, ch = some c ∧ t = s.emit c w) ∨
       (w ≤ s.remaining ∧ ch = none ∧ t = s.scanError bad)) := by
  unfold decodeStep at h
  split at h
  · cases h
  · rename_i hp
    refine ⟨not_not.1 hp, ?_⟩
    split at h
    · cases h
      exact .inl ⟨‹_›, rfl⟩
    · split at h <;> cases h
      · exact .inr (.inl ⟨by omega, _, rfl, rfl⟩)
      · exact .inr (.inr ⟨by omega, rfl, rfl⟩)

/-- The scan step of TERM, by how it ends. -/
theorem execTerm_cases {s t : State} (h : execTerm s = .next t) :
    s.phase = .extScan ∧
      ((8 ≤ s.remaining ∧ t = s.scanDone) ∨
       (s.remaining = 7 ∧ t = s.scanError .corruptStream) ∨
       (s.remaining < 7 ∧ t = s.scanError .terminatorNotFound)) := by
  unfold execTerm at h
  split at h
  · cases h
  · rename_i hp
    refine ⟨not_not.1 hp, ?_⟩
    split at h
    · cases h
      exact .inl ⟨‹_›, rfl⟩
    · split at h <;> cases h
      · exact .inr (.inl ⟨‹_›, rfl⟩)
      · exact .inr (.inr ⟨by omega, rfl⟩)

/-- A command is taken exactly when STATE is not BUSY. -/
theorem whenNotBusy_next {s t u : State} : whenNotBusy s t = .next u ↔ s.state ≠ .busy ∧ u = t := by
  unfold whenNotBusy
  by_cases h : s.state = .busy <;> simp [h, eq_comm]

/-- A digit value's character is the code point of a digit. -/
theorem isCharacter_of_digitChar {d : Nat} {c : Byte} (h : digitChar d = some c) : isCharacter c = true := by
  unfold digitChar at h
  split at h
  · cases h
    interval_cases d <;> decide
  · cases h

/-- A capital letter's offset gives the code point of a capital letter. -/
theorem isCharacter_of_upperChar {o : Nat} {c : Byte} (h : letterChar 0x41 o = some c) : isCharacter c = true := by
  unfold letterChar at h
  split at h
  · cases h
    interval_cases o <;> decide
  · cases h

/-- A small letter's offset gives the code point of a small letter. -/
theorem isCharacter_of_lowerChar {o : Nat} {c : Byte} (h : letterChar 0x61 o = some c) : isCharacter c = true := by
  unfold letterChar at h
  split at h
  · cases h
    interval_cases o <;> decide
  · cases h

/-- What one step can do to a state, once the host's operation (if it is the host's turn) is taken off its program. -/
inductive Effect (s : State) : State → Prop where
  | stayed : Effect s s
  | emitted (c : Byte) (w : Nat) (scanning : s.phase = .extScan) (width : 5 ≤ w) (fits : w ≤ s.remaining)
      (char : isCharacter c = true) : Effect s (s.emit c w)
  | scanFailed (e : ErrCode) (scanning : s.phase = .extScan) (isError : e ≠ .noError) : Effect s (s.scanError e)
  | scanEnded (scanning : s.phase = .extScan) (fits : 8 ≤ s.remaining) : Effect s s.scanDone
  | serialised (ser : s.phase = .embSer) : Effect s (embSerStep s)
  | checked (chk : s.phase = .embChk) : Effect s (embChkStep s)
  | packed (wr : s.phase = .embWr) : Effect s (embWrStep s)
  | wasReset : Effect s s.applyReset
  | read (d : HostData) : Effect s (s.receive d)
  | wroteSample (i : Nat) (v : Byte) (free : s.state ≠ .busy) (inside : i < Config.maxBuf) :
      Effect s (s.setSample i v)
  | wroteMsg (k : Nat) (v : Word) (free : s.state ≠ .busy) (inside : k < Config.maxMsg) : Effect s (s.setMsg k v)
  | wroteBufLen (v : Word) (free : s.state ≠ .busy) (legal : v.toNat ≤ Config.maxBuf) :
      Effect s { s with bufLen := v }
  | wroteMsgLen (v : Word) (free : s.state ≠ .busy) (legal : v.toNat ≤ Config.maxMsg) :
      Effect s { s with msgLen := v }
  | started (p : Phase) (free : s.state ≠ .busy) (isCommand : p = .embSer ∨ p = .extScan) : Effect s (s.start p)
  | wasIllegal (v : Word) (free : s.state ≠ .busy) :
      Effect s { s with state := .error, errCode := .illegalCommand, errInfo := v, bitsLen := 0#32, outLen := 0#32,
                        epoch := s.epoch + 1 }

/-- What executing one instruction can do. -/
theorem exec_effect {i : Instr} {s t : State} (h : exec i s = .next t) : Effect s t := by
  cases i with
  | term =>
    obtain ⟨hp, ⟨hr, rfl⟩ | ⟨-, rfl⟩ | ⟨-, rfl⟩⟩ := execTerm_cases h
    · exact .scanEnded hp hr
    · exact .scanFailed _ hp (by decide)
    · exact .scanFailed _ hp (by decide)
  | digit d =>
    obtain ⟨hp, ⟨-, rfl⟩ | ⟨hr, c, hc, rfl⟩ | ⟨-, -, rfl⟩⟩ := decodeStep_cases h
    · exact .scanFailed _ hp (by decide)
    · exact .emitted _ _ hp (by decide) hr (isCharacter_of_digitChar hc)
    · exact .scanFailed _ hp (by decide)
  | upper o =>
    obtain ⟨hp, ⟨-, rfl⟩ | ⟨hr, c, hc, rfl⟩ | ⟨-, -, rfl⟩⟩ := decodeStep_cases h
    · exact .scanFailed _ hp (by decide)
    · exact .emitted _ _ hp (by decide) hr (isCharacter_of_upperChar hc)
    · exact .scanFailed _ hp (by decide)
  | lower o =>
    obtain ⟨hp, ⟨-, rfl⟩ | ⟨hr, c, hc, rfl⟩ | ⟨-, -, rfl⟩⟩ := decodeStep_cases h
    · exact .scanFailed _ hp (by decide)
    · exact .emitted _ _ hp (by decide) hr (isCharacter_of_lowerChar hc)
    · exact .scanFailed _ hp (by decide)
  | embed =>
    obtain ⟨hb, rfl⟩ := whenNotBusy_next.1 h
    exact .started _ hb (.inl rfl)
  | extract =>
    obtain ⟨hb, rfl⟩ := whenNotBusy_next.1 h
    exact .started _ hb (.inr rfl)
  | illegal v =>
    obtain ⟨hb, rfl⟩ := whenNotBusy_next.1 h
    exact .wasIllegal v hb

/-- Carrying out a move: `step s` is `carry (nextMove s)`. -/
def carry : Move → Host.Outcome State Fault Refusal
  | .run i t => exec i t
  | .settled o => o

theorem step_eq_carry (s : State) : step s = carry (nextMove s) := by
  unfold step carry
  cases nextMove s <;> rfl

/-- What one sequencer step of the core can do. -/
theorem coreMove_effect {s t : State} (h : carry (coreMove s) = .next t) : Effect s t := by
  unfold coreMove at h
  split at h
  · cases h
    exact .stayed
  · cases h
    exact .serialised ‹_›
  · cases h
    exact .checked ‹_›
  · cases h
    exact .packed ‹_›
  · rename_i hp
    unfold scanMove at h
    split at h
    · exact exec_effect h
    · cases h
      exact .scanFailed _ hp (by decide)
    · cases h
      exact .scanFailed _ hp (by decide)

/-- The slot or index of a legal access form is within its window. -/
theorem kind_inside {a : Access} {f : AccessForm} (h : a.kind = .form f) :
    match f with
    | .readSlot n => n < 16
    | .writeSlot n _ => n < 16
    | .readSample i => i < Config.maxBuf
    | .writeSample i _ => i < Config.maxBuf
    | .readMsg k => k < Config.maxMsg
    | .writeMsg k _ => k < Config.maxMsg
    | .readOut k => k < Config.maxOut := by
  rcases a with ⟨_ | _ | _ | _, off⟩ | ⟨_ | _ | _ | _, off, v⟩ | ⟨_ | _ | _ | _, off⟩ | ⟨_ | _ | _ | _, off, v⟩ <;>
    simp only [Access.kind, wordForm, byteForm] at h <;> (repeat' split at h) <;> cases h <;> assumption

/-- What one host access can do. -/
theorem hostAccess_effect {s t : State} {a : Access} (h : carry (hostAccess s a) = .next t) : Effect s t := by
  unfold hostAccess at h
  split at h
  · cases h
  · cases h
  · rename_i f hf
    have inside := kind_inside hf
    split at h
    · cases h
    · rename_i hb
      cases f with
      | readSlot n =>
        cases h
        exact .read _
      | writeSlot n v =>
        have free : s.state ≠ .busy := fun hs => hb ⟨hs, by simp⟩
        simp only [hostForm] at h
        cases hn : slotOf n <;> simp only [hn, State.writeSlot, writeLength] at h
        case cmd => exact exec_effect h
        case bufLen =>
          split at h <;> cases h
          exact .wroteBufLen v free ‹_›
        case msgLen =>
          split at h <;> cases h
          exact .wroteMsgLen v free ‹_›
        all_goals
          cases h
          exact .stayed
      | readSample i =>
        cases h
        exact .read _
      | writeSample i v =>
        cases h
        exact .wroteSample i v (fun hs => hb ⟨hs, by simp⟩) inside
      | readMsg k =>
        cases h
        exact .read _
      | writeMsg k v =>
        cases h
        exact .wroteMsg k v (fun hs => hb ⟨hs, by simp⟩) inside
      | readOut k =>
        cases h
        exact .read _

/-- What one step can do: one effect, on the state with the host's program as it then is. -/
theorem step_effect {s t : State} (h : step s = .next t) : ∃ rest, Effect { s with hostProgram := rest } t := by
  rw [step_eq_carry] at h
  unfold nextMove at h
  split at h
  · exact ⟨s.hostProgram, coreMove_effect h⟩
  · rename_i op rest _
    split at h
    · exact ⟨rest, coreMove_effect h⟩
    · unfold pollMove at h
      split at h
      · exact ⟨s.hostProgram, coreMove_effect h⟩
      · exact ⟨s.hostProgram, coreMove_effect h⟩
      · cases h
        exact ⟨rest, .read _⟩
      · cases h
        exact ⟨rest, .read _⟩
    · cases h
      exact ⟨rest, .wasReset⟩
    · exact ⟨rest, hostAccess_effect h⟩

/-- With no host operation left, a step is the core's. -/
theorem step_of_no_program {s : State} (h : s.hostProgram = []) : step s = carry (coreMove s) := by
  rw [step_eq_carry, nextMove, h]

/-- When it is the core's turn, a step is the core's, from the state the turn gives. -/
theorem step_of_coreTurn {u s : State} (h : u.CoreTurn s) : step u = carry (coreMove s) := by
  obtain ⟨hu, rfl⟩ | ⟨rest, hu, rfl⟩ | ⟨rest, hu, hd, he, rfl⟩ := h
  · exact step_of_no_program hu
  · rw [step_eq_carry, nextMove, hu]
  · rw [step_eq_carry, nextMove, hu]
    simp only [pollMove]
    split <;> first | rfl | contradiction

end Sys2Proof.Machine
end

