-- ==== Sys2Proof/Laws/Run.lean ====
section
/-!
SUPPORT. Runs of several steps: splitting a run, its first step, and that a block with nothing to do keeps its state.
-/

namespace Sys2Proof.Machine

theorem run_succ_of_next {s t : State} (h : step s = .next t) (n : Nat) :
    Host.Core.run core (n + 1) s = Host.Core.run core n t := by
  have hc : core.step s = .next t := h
  refine (Host.Core.run.eq_2 core s n).trans ?_
  rw [hc]

/-- A run of at least one step that answers a state begins with a step that answers one. -/
theorem step_of_run_succ {s u : State} {n : Nat} (h : Host.Core.run core (n + 1) s = .next u) :
    ∃ t, step s = .next t ∧ Host.Core.run core n t = .next u := by
  cases hs : step s with
  | next t => exact ⟨t, rfl, by rwa [run_succ_of_next hs] at h⟩
  | fault r =>
    have hc : core.step s = .fault r := hs
    have h := (Host.Core.run.eq_2 core s n).symm.trans h
    rw [hc] at h
    cases h
  | refused r =>
    have hc : core.step s = .refused r := hs
    have h := (Host.Core.run.eq_2 core s n).symm.trans h
    rw [hc] at h
    cases h

/-- A run that has come to a state goes on from it. -/
theorem run_add {m : Nat} {s t : State} (h : Host.Core.run core m s = .next t) (n : Nat) :
    Host.Core.run core (m + n) s = Host.Core.run core n t := by
  induction m generalizing s with
  | zero =>
    cases h
    rw [Nat.zero_add]
  | succ m ih =>
    obtain ⟨u, hu, hm⟩ := step_of_run_succ h
    rw [Nat.succ_add, run_succ_of_next hu, ih hm]

/-- With no command and no host operation the state stays as it is (spec/60_exceptions.md R250). -/
theorem run_of_idle {s : State} (hp : s.phase = .idle) (hh : s.hostProgram = []) (n : Nat) :
    Host.Core.run core n s = .next s := by
  have h : step s = .next s := by
    rw [step_of_no_program hh, coreMove, hp, carry]
  induction n with
  | zero => rfl
  | succ n ih => rw [run_succ_of_next h, ih]

end Sys2Proof.Machine
end

