-- ==== Sys2Proof/Tests/Slice0.lean ====
section
/-!
SUPPORT. The model's own tests: ill-formed terms the checks refuse, words written out from the spec's encodings, single
steps and unit vectors of spec/95_test_vectors.md, and for every statement a witness that meets its hypotheses.
-/

namespace Sys2Proof.Tests

open Sys2Proof Sys2Proof.Machine

/-! ## Well-formedness (spec/30_encoding.md R77, R82) -/

theorem test_digit_10_is_ill_formed : (Instr.digit 10#4).wf = false ∧ (Instr.digit 9#4).wf = true := by decide
theorem test_upper_26_is_ill_formed : (Instr.upper 26#5).wf = false ∧ (Instr.upper 25#5).wf = true := by decide
theorem test_lower_31_is_ill_formed : (Instr.lower 31#5).wf = false ∧ (Instr.lower 25#5).wf = true := by decide
theorem test_illegal_1_and_2_are_ill_formed :
    (Instr.illegal 1#32).wf = false ∧ (Instr.illegal 2#32).wf = false ∧ (Instr.illegal 0#32).wf = true := by decide

/-! ## Decoding, the words written out bit by bit from R71 and R82 -/

theorem test_decode_term : decodeTableWord 8 0b11111111 = some .term := by decide
/-- `'5'` is `00101`, then the window's three other bits (R71, L1-7). -/
theorem test_decode_digit : decodeTableWord 8 0b00101110 = some (.digit 5#4) := by decide
/-- `'Z'` is `1011001` (V-E5). -/
theorem test_decode_upper : decodeTableWord 8 0b10110010 = some (.upper 25#5) := by decide
/-- `'z'` is `1111001` (L1-7). -/
theorem test_decode_lower : decodeTableWord 8 0b11110011 = some (.lower 25#5) := by decide
theorem test_decode_embed : decodeTableWord 32 0x00000001 = some .embed := by decide
theorem test_decode_extract : decodeTableWord 32 0x00000002 = some .extract := by decide
/-- V-C12: the decode uses all 32 bits. -/
theorem test_decode_illegal : decodeTableWord 32 0x80000001 = some (.illegal 0x80000001#32) := by decide
/-- V-D13: seven ones are LOWER 31, not TERM. -/
theorem test_decode_seven_ones :
    decode (.stream [true, true, true, true, true, true, true]) = .instr (.lower 31#5) [] := by decide
/-- V-D7: `101101` is cut off. -/
theorem test_decode_truncated : decode (.stream [true, false, true, true, false, true]) = .truncated := by decide

/-! ## Small states -/

/-- A list of values as a memory from index 0. -/
def memory {w : Nat} (vs : List (BitVec w)) : Memory w := (List.range vs.length).zip vs

/-- SAMPLE bytes, a message, and their lengths, after reset. -/
def loaded (bytes : List Byte) (text : List Word) : State :=
  { State.reset with
    sample := memory bytes, msgIn := memory text
    bufLen := BitVec.ofNat 32 bytes.length, msgLen := BitVec.ofNat 32 text.length }

/-- A scan at POS = 0, K = 0 of a stream given by its bits. -/
def scanning (bits : Bits) : State :=
  (loaded (bits.map fun b => (BitVec.ofBool b).setWidth 8) []).start .extScan

/-- Zeros as a stream. -/
def zeros (n : Nat) : Bits := List.replicate n false

/-- Ones as a stream. -/
def ones (n : Nat) : Bits := List.replicate n true

/-- A pattern of 0 and 1, first bit first. -/
def pattern (n v : Nat) : Bits := bin n v

/-- The pattern followed by the terminator. -/
def closed (n v : Nat) : Bits := pattern n v ++ ones 8

/-- A stream given by its bits, 0 after them. -/
def stream (bits : Bits) (i : Nat) : Bool := bits.getD i false

/-- The state, with the host's program. -/
def withProgram (s : State) (p : List HostOp) : State := { s with hostProgram := p }

/-- What a step left in STATE, ERR_CODE, ERR_INFO, BITS_LEN and OUT_LEN. -/
def ended : Host.Outcome State Fault Refusal → Option (CoreState × ErrCode × Nat × Nat × Nat)
  | .next s => some (s.state, s.errCode, s.errInfo.toNat, s.bitsLen.toNat, s.outLen.toNat)
  | .fault _ => none
  | .refused _ => none

/-- One fact about the next state. -/
def nextHas (o : Host.Outcome State Fault Refusal) (p : State → Bool) : Bool :=
  match o with
  | .next s => p s
  | .fault _ => false
  | .refused _ => false

/-! ## One step of each instruction, run from the stream or from the CMD write -/

/-- V-D8: TERM at boundary 0 is the empty message. -/
theorem test_term_ends : ended (step (scanning (ones 8))) = some (.done, .noError, 0, 8, 0) := by decide
/-- R184 with K and POS: BITS_LEN is p + 8. -/
theorem test_term_counts :
    ended (step { scanning (closed 5 0b00101) with pos := 5, k := 1 }) = some (.done, .noError, 0, 13, 1) := by decide
/-- V-D1: `00101` is '5'. -/
theorem test_digit_decodes :
    nextHas (step (scanning (pattern 5 0b00101))) (fun s => s.out = [(0, 0x35#8)] ∧ s.pos = 5 ∧ s.k = 1) = true := by
  decide
/-- V-D16: the value 10 raises INVALID_DIGIT_VALUE at 0. -/
theorem test_digit_raises :
    ended (step (scanning (pattern 10 0b0101000000))) = some (.error, .invalidDigitValue, 0, 0, 0) := by decide
/-- V-D4: `1011001` is 'Z'. -/
theorem test_upper_decodes :
    nextHas (step (scanning (pattern 7 0b1011001))) (fun s => s.out = [(0, 0x5A#8)] ∧ s.pos = 7 ∧ s.k = 1) = true := by
  decide
/-- V-D6: U26 is corrupt. -/
theorem test_upper_raises :
    ended (step (scanning (pattern 7 0b1011010))) = some (.error, .corruptStream, 0, 0, 0) := by decide
/-- V-D3: `1111001` is 'z'. -/
theorem test_lower_decodes :
    nextHas (step (scanning (pattern 7 0b1111001))) (fun s => s.out = [(0, 0x7A#8)] ∧ s.pos = 7 ∧ s.k = 1) = true := by
  decide
/-- V-D13: seven ones at the end are corrupt. -/
theorem test_lower_raises : ended (step (scanning (ones 7))) = some (.error, .corruptStream, 0, 0, 0) := by decide
/-- The first step of the trace of P4 line 5. -/
theorem test_embed_starts :
    nextHas (step (withProgram (loaded [] [0x37#32]) [opWr .cmd 1#32]))
      (fun s => s.state = .busy ∧ s.phase = .embSer ∧ s.k = 0 ∧ s.bits = []) = true := by decide
/-- R201: EXTRACT starts in the scan phase and clears the error registers. -/
theorem test_extract_starts :
    nextHas (step (withProgram ((loaded [] []).raise .illegalCommand 3#32) [opWr .cmd 2#32]))
      (fun s => s.state = .busy ∧ s.phase = .extScan ∧ s.errCode = .noError ∧ s.errInfo = 0#32) = true := by decide
/-- V-C11: the word 3 is an illegal command. -/
theorem test_illegal_ends :
    ended (step (withProgram (loaded [] []) [opWr .cmd 3#32])) = some (.error, .illegalCommand, 3, 0, 0) := by decide
/-- V-C10: so is the word 0. -/
theorem test_illegal_zero :
    ended (step (withProgram (loaded [] []) [opWr .cmd 0#32])) = some (.error, .illegalCommand, 0, 0, 0) := by decide

/-! ## Words placed for the next step -/

theorem test_fetch_lower : step (State.reset.withFetchWord 8 0xC0) = exec (.lower 0#5) (State.reset.withFetchWord 8 0xC0) := by
  rfl
theorem test_fetch_term : ended (step (State.reset.withFetchWord 8 0xFF)) = some (.done, .noError, 0, 8, 0) := by decide
theorem test_fetch_illegal :
    ended (step (State.reset.withFetchWord 32 7)) = some (.error, .illegalCommand, 7, 0, 0) := by decide

/-! ## Unit vectors and sequencer steps -/

/-- V-E12: SERIALIZE("5Az"). -/
theorem test_serialize :
    serialize (loaded [] [0x35#32, 0x41#32, 0x7A#32]).msgEntry 3
      = .ok (pattern 5 0b00101 ++ pattern 7 0b1000000 ++ pattern 7 0b1111001 ++ ones 8) := by decide
/-- V-E19: the least index is reported. -/
theorem test_serialize_unsupported :
    serialize (loaded [] [0x20#32, 0x61#32, 0x20#32]).msgEntry 3 = .unsupported 0 := by decide
/-- V-P5. -/
theorem test_pack_write :
    (packWrite (pattern 5 0b00101) (loaded [0x10#8, 0x11#8, 0x12#8, 0x13#8, 0x14#8] [])).sample
      = memory [0x10#8, 0x10#8, 0x13#8, 0x12#8, 0x15#8] := by decide
/-- V-X3. -/
theorem test_lsb_stream :
    (loaded [0x10#8, 0x10#8, 0x13#8, 0x12#8, 0x15#8] []).lsbStream = pattern 5 0b00101 := by decide
/-- V-D12: the stream of "py" has eight ones across two patterns and still scans to "py". -/
theorem test_scan_py :
    scan (stream (pattern 7 0b1101111 ++ closed 7 0b1111000)) 22 = .done [0x70#8, 0x79#8] 14 := by decide
/-- V-D15: the first boundary fails before the terminator is reached. -/
theorem test_scan_corrupt : scan (stream (closed 7 0b1111011)) 15 = .failed .corruptStream [] 0 := by decide
/-- V-C9: unsupported takes priority over capacity. -/
theorem test_embed_priority :
    ended (.next (embedBigStep { loaded [0#8, 0#8, 0#8] [0x61#32, 0x20#32, 0x62#32] with bufLen := 3#32 }))
      = some (.error, .unsupportedCharacter, 1, 0, 0) := by decide
/-- V-C1: EMBED after reset. -/
theorem test_embed_after_reset :
    ended (.next (embedBigStep State.reset)) = some (.error, .capacityExceeded, 8, 0, 0) := by decide
/-- V-C2: EXTRACT after reset. -/
theorem test_extract_after_reset :
    ended (.next (extractBigStep State.reset)) = some (.error, .terminatorNotFound, 0, 0, 0) := by decide
/-- Step 4 of the trace of P4 line 5: SAMPLE[0] becomes FE. -/
theorem test_write_step :
    nextHas (step { (loaded [0xFF#8] []).start .embWr with bits := closed 5 0b00111 })
      (fun s => s.sample = [(0, 0xFE#8)] ∧ s.widx = 1) = true := by decide
/-- V-C14: slot 15 reads 0. -/
theorem test_read_reserved :
    nextHas (step (withProgram State.reset [.access (.read32 .registers 60)])) (fun s => s.received = [.word 0#32])
      = true := by decide
/-- R260: a reset in the write phase keeps SAMPLE. -/
theorem test_reset_while_busy :
    nextHas (step (withProgram ((loaded [0xFF#8] []).start .embWr) [.reset]))
      (fun s => s.state = .idle ∧ s.sample = [(0, 0xFF#8)] ∧ s.bufLen = 0#32) = true := by decide

/-! ## Witnesses: a concrete input that meets the hypotheses of each statement, at the edge of each clause -/

theorem witness_DecodeOfEncodedTokenIsTheToken :
    (tokenBits .term ≠ [] ∧ (Instr.term = .lower 31#5 → (ones 1).head? ≠ some true)) ∧
    (tokenBits (.lower 31#5) ≠ [] ∧ (Instr.lower 31#5 = .lower 31#5 → (zeros 1).head? ≠ some true)) := by decide
theorem witness_DecodedTokenIsWhatStandsThere :
    decode (.stream (pattern 6 0b001011)) = .instr (.digit 5#4) [true] := by decide
theorem witness_NoCharacterIsReadAsTerminator : encChar 0x7A#32 = some (pattern 7 0b1111001) := by decide
theorem witness_EncCharGivesTheClassPattern :
    (0x30 ≤ (0x39#32).toNat ∧ (0x39#32).toNat ≤ 0x39) ∧ (0x41 ≤ (0x5A#32).toNat ∧ (0x5A#32).toNat ≤ 0x5A) ∧
    (0x61 ≤ (0x61#32).toNat ∧ (0x61#32).toNat ≤ 0x7A) ∧
    (¬ (0x30 ≤ (0x3A#32).toNat ∧ (0x3A#32).toNat ≤ 0x39) ∧ ¬ (0x41 ≤ (0x3A#32).toNat ∧ (0x3A#32).toNat ≤ 0x5A) ∧
      ¬ (0x61 ≤ (0x3A#32).toNat ∧ (0x3A#32).toNat ≤ 0x7A)) := by decide
theorem witness_SerializeConcatenatesThePatterns :
    ∀ k < 3, classify ((loaded [] [0x35#32, 0x41#32, 0x7A#32]).msgEntry k) ≠ .unsupported := by decide
theorem witness_BitstreamLengthIsTheClassCount :
    serialize (loaded [] [0x37#32]).msgEntry 1 = .ok (closed 5 0b00111) := by decide
theorem witness_SerializeDependsOnlyOnTheMessage :
    ∀ k < 1, (loaded [] [0x37#32, 0x20#32]).msgEntry k = (loaded [] [0x37#32, 0x38#32]).msgEntry k := by decide
theorem witness_ScanOfASerializedMessageIsTheMessage :
    serialize (loaded [] [0x37#32]).msgEntry 1 = .ok (closed 5 0b00111) ∧ (closed 5 0b00111).length ≤ 13 ∧
    slice (stream (closed 5 0b00111)) 0 (closed 5 0b00111).length = closed 5 0b00111 := by decide
theorem witness_PackWriteReplacesOnlyTheLowBits : (ones 8)[7]? = some true ∧ (ones 8).length ≤ 8 := by decide
theorem witness_LsbStreamOfAPackedBuffer : (ones 1).length ≤ (loaded [0x10#8] []).bufLen.toNat := by decide
theorem witness_DecCharFollowsItsArms_digit :
    0 < 5 ∧ stream (pattern 5 0b01001) 0 = false ∧ 5 ≤ 5 - 0 ∧
    valueOf (slice (stream (pattern 5 0b01001)) (0 + 1) 4) ≤ 9 := by decide
theorem witness_DecCharFollowsItsArms_upper :
    0 < 7 ∧ stream (pattern 7 0b1011001) 0 = true ∧ stream (pattern 7 0b1011001) (0 + 1) = false ∧ 7 ≤ 7 - 0 ∧
    valueOf (slice (stream (pattern 7 0b1011001)) (0 + 2) 5) ≤ 25 := by decide
theorem witness_DecCharFollowsItsArms_lower :
    0 < 7 ∧ stream (pattern 7 0b1111001) 0 = true ∧ stream (pattern 7 0b1111001) (0 + 1) = true ∧ 7 ≤ 7 - 0 ∧
    valueOf (slice (stream (pattern 7 0b1111001)) (0 + 2) 5) ≤ 25 := by decide
theorem witness_DecCharFollowsItsArms_truncated :
    (0 < 4 ∧ stream (zeros 4) 0 = false ∧ 4 - 0 ≤ 4) ∧ (0 < 6 ∧ stream (ones 6) 0 = true ∧ 6 - 0 ≤ 6) := by decide
theorem witness_DecCharFollowsItsArms_errors :
    (0 < 5 ∧ stream (pattern 5 0b01010) 0 = false ∧ 5 ≤ 5 - 0 ∧
      10 ≤ valueOf (slice (stream (pattern 5 0b01010)) (0 + 1) 4)) ∧
    (0 < 7 ∧ stream (pattern 7 0b1011010) 0 = true ∧ 7 ≤ 7 - 0 ∧
      26 ≤ valueOf (slice (stream (pattern 7 0b1011010)) (0 + 2) 5)) := by decide
theorem witness_DecCharReadsOnlyItsToken :
    (0 < 8 ∧ ∀ i, 0 ≤ i → i < 8 → i < 0 + (if stream (ones 7) 0 then 7 else 5) → stream (ones 7) i = stream (ones 8) i) ∧
    (0 < 8 ∧ ∀ i, 0 ≤ i → i < 8 → i < 0 + (if stream (zeros 5) 0 then 7 else 5) →
      stream (zeros 5) i = stream (zeros 5 ++ ones 3) i) := by
  refine ⟨⟨by decide, fun i _ _ hi => ?_⟩, by decide, fun i _ _ hi => ?_⟩
  · have hi : i < 7 := hi
    interval_cases i <;> rfl
  · have hi : i < 5 := hi
    interval_cases i <;> rfl
theorem witness_DecCharOfAnEncodedCharacter :
    encChar 0x41#32 = some (pattern 7 0b1000000) ∧ (pattern 7 0b1000000).length ≤ 7 - 0 ∧
    slice (stream (pattern 7 0b1000000)) 0 (pattern 7 0b1000000).length = pattern 7 0b1000000 := by decide
theorem witness_ScanStepFollowsTheOrderOfTests :
    let s := scanning (ones 8)
    s.phase = .extScan ∧ s.CoreTurn s ∧ (withProgram s [.wait]).CoreTurn s ∧
    (withProgram s [.poll]).CoreTurn (withProgram s [.poll]) :=
  ⟨by decide, .inl ⟨rfl, rfl⟩, .inr (.inl ⟨[], rfl, rfl⟩), .inr (.inr ⟨[], rfl, by decide, by decide, rfl⟩)⟩
theorem witness_ScanReadsOnlyBeforeItsStop :
    scan (stream (ones 8)) 9 = .done [] 0 ∧ (∀ i, i < 0 + 8 → stream (ones 8) i = stream (ones 9) i) ∧
    stream (ones 8) 8 ≠ stream (ones 9) 8 := by
  refine ⟨by decide, fun i hi => ?_, by decide⟩
  interval_cases i <;> rfl
theorem witness_CharacterTokensAreDecoded :
    (scanning (zeros 5)).phase = .extScan ∧ (5 ≤ (scanning (zeros 5)).remaining ∧ (9#4).toNat ≤ 9) ∧
    (scanning (zeros 7)).phase = .extScan ∧ (7 ≤ (scanning (zeros 7)).remaining ∧ (25#5).toNat ≤ 25) := by decide
theorem witness_TermTokenEndsTheScan :
    (scanning (ones 8)).phase = .extScan ∧ 8 ≤ (scanning (ones 8)).remaining := by decide
theorem witness_TokensWithoutACharacterRaise :
    ((scanning (zeros 4)).phase = .extScan ∧ (scanning (zeros 4)).remaining < 5) ∧
    ((scanning (zeros 5)).phase = .extScan ∧ 5 ≤ (scanning (zeros 5)).remaining ∧ 10 ≤ (10#4).toNat) ∧
    ((scanning (ones 6)).phase = .extScan ∧ (scanning (ones 6)).remaining < 7) ∧
    ((scanning (ones 7)).phase = .extScan ∧ 7 ≤ (scanning (ones 7)).remaining ∧ 26 ≤ (26#5).toNat) ∧
    (scanning (ones 7)).remaining = 7 := by decide
theorem witness_TokensLeaveTheRest :
    tokenBits (.digit 5#4) ≠ [] ∧ ∃ t, exec (.digit 5#4) (scanning (zeros 5)) = .next t := ⟨by decide, _, rfl⟩

/-- An EMBED in its serialisation phase. -/
def serialising : State := (loaded [] [0x37#32]).start .embSer

/-- An EMBED in its capacity phase. -/
def checking : State := { (loaded [] []).start .embChk with bits := ones 8 }

/-- An EMBED in its write phase. -/
def writing : State := { (loaded (List.replicate 8 0#8) []).start .embWr with bits := ones 8 }

theorem witness_CommandStartAndSerialisationSteps :
    State.reset.state ≠ .busy ∧ serialising.phase = .embSer ∧ serialising.CoreTurn serialising ∧
    (withProgram serialising [.wait]).CoreTurn serialising ∧
    (withProgram serialising [.poll]).CoreTurn (withProgram serialising [.poll]) :=
  ⟨by decide, by decide, .inl ⟨rfl, rfl⟩, .inr (.inl ⟨[], rfl, rfl⟩),
    .inr (.inr ⟨[], rfl, by decide, by decide, rfl⟩)⟩
theorem witness_CapacityAndWriteSteps :
    (checking.CoreTurn checking ∧ checking.phase = .embChk) ∧
    ((withProgram writing [.wait]).CoreTurn writing ∧ writing.phase = .embWr ∧
      writing.bits[writing.widx]? = some true ∧ ({ writing with widx := 8 }).bits.length ≤ 8) :=
  ⟨⟨.inl ⟨rfl, rfl⟩, by decide⟩, .inr (.inl ⟨[], rfl, rfl⟩), by decide, by decide, by decide⟩
theorem witness_CommandRunsReachTheirBigStep :
    (withProgram State.reset [opWr .cmd 0x00000001#32]).state ≠ .busy ∧
    (withProgram State.reset [opWr .cmd 0x00000001#32]).hostProgram = [opWr .cmd 0x00000001#32] ∧
    (withProgram State.reset [opWr .cmd 0x00000002#32]).hostProgram = [opWr .cmd 0x00000002#32] := by decide

/-- The empty message and a buffer that just holds it, with the CMD write of EMBED to come. -/
def fitting : State := withProgram (loaded (List.replicate 8 0#8) []) [opWr .cmd 0x00000001#32]

theorem witness_EmbedTakesItsStepCount :
    fitting.state ≠ .busy ∧ fitting.hostProgram = [opWr .cmd 0x00000001#32] ∧
    serialize fitting.msgEntry fitting.msgLen.toNat = .ok (ones 8) ∧ (ones 8).length ≤ fitting.bufLen.toNat := by decide
theorem witness_ExtractEndsWithinItsStepBound :
    (scanning (zeros 9)).phase = .extScan ∧ (scanning (zeros 9)).hostProgram = [] := by decide
theorem witness_IllegalCommandEndsInError : State.reset.state ≠ .busy := by decide
theorem witness_InstructionsOutOfPlaceAreRefused :
    (tokenBits .embed = [] ∧ serialising.state = .busy) ∧ (tokenBits .term ≠ [] ∧ State.reset.phase ≠ .extScan) := by
  decide
theorem witness_CommandWritesLeaveTheRest :
    tokenBits (.illegal 3#32) = [] ∧ ∃ t, exec (.illegal 3#32) State.reset = .next t := ⟨by decide, _, rfl⟩
theorem witness_CommandResultsDependOnlyOnTheirInputs :
    let s := { loaded [0x10#8, 0x11#8] [0x37#32] with bufLen := 1#32 }
    let s' := { (loaded [0x10#8, 0x12#8] [0x37#32]).raise .illegalCommand 3#32 with bufLen := 1#32 }
    s.bufLen = s'.bufLen ∧ s.msgLen = s'.msgLen ∧ (∀ i < s.bufLen.toNat, s.sampleByte i = s'.sampleByte i) ∧
    (∀ k < s.msgLen.toNat, s.msgEntry k = s'.msgEntry k) ∧ s ≠ s' := by decide
theorem witness_ExtractAfterEmbedReturnsTheMessage :
    serialize fitting.msgEntry fitting.msgLen.toNat = .ok (ones 8) ∧ (ones 8).length ≤ fitting.bufLen.toNat := by decide
theorem witness_EmbedSucceedsExactlyWhenItFits :
    ∀ k < (loaded [] [0x37#32]).msgLen.toNat, classify ((loaded [] [0x37#32]).msgEntry k) ≠ .unsupported := by decide
theorem witness_EmptyMessageIsTheTerminatorAlone : fitting.msgLen = 0#32 ∧ 8 ≤ fitting.bufLen.toNat := by decide
/-- The host writes CMD and polls. -/
theorem witness_CommandsAreAllOrNothingOnSample_error :
    let s := withProgram State.reset [opWr .cmd 1#32, .poll]
    s.state ≠ .busy ∧ (∀ op ∈ [HostOp.poll], op = .wait ∨ op = .poll ∨ op = opRd .status) ∧
    s.hostProgram = opWr .cmd 1#32 :: [.poll] ∧
    nextHas (Host.Core.run core (2 + 1) s) (fun t => t.state = .error) = true := by decide
theorem witness_CommandsAreAllOrNothingOnSample_done :
    fitting.hostProgram = opWr .cmd 1#32 :: [] ∧
    nextHas (Host.Core.run core (11 + 1) fitting) (fun t => t.state = .done) = true := by decide
theorem witness_CommandsAreAllOrNothingOnSample_extract :
    nextHas (Host.Core.run core (1 + 1) (withProgram State.reset [opWr .cmd 2#32, opRd .status]))
      (fun t => t.received = [.word 1#32]) = true := by decide
theorem witness_CoreStepsWriteOnlyTheirOwn : writing.hostProgram = [] ∧ ∃ t, step writing = .next t :=
  ⟨by decide, _, rfl⟩
theorem witness_HostReadsHaveNoSideEffect :
    let s := withProgram State.reset [.access (.read32 .registers 4)]
    s.hostProgram = .access (.read32 .registers 4) :: [] ∧ ∃ t, step s = .next t := ⟨by decide, _, rfl⟩
theorem witness_HostReachesSampleAndMessageEntries :
    State.reset.state ≠ .busy ∧
    (withProgram State.reset [.access (.write8 .sample 0 1#8)]).hostProgram = .access (.write8 .sample 0 1#8) :: [] ∧
    (withProgram State.reset [.access (.read8 .sample 0)]).hostProgram = .access (.read8 .sample 0) :: [] ∧
    (withProgram State.reset [.access (.write32 .message (4 * 0) 1#32)]).hostProgram
      = .access (.write32 .message (4 * 0) 1#32) :: [] ∧
    (withProgram State.reset [.access (.read32 .message (4 * 0))]).hostProgram
      = .access (.read32 .message (4 * 0)) :: [] := by decide
theorem witness_HostReadsOfOutByOutLen :
    let s := withProgram { State.reset with out := [(0, 0x37#8)], outLen := 1#32 } [.access (.read8 .output 0)]
    s.state ≠ .busy ∧ s.hostProgram = .access (.read8 .output 0) :: [] ∧ 0 < s.outLen.toNat ∧
    Memory.get? s.out 0 = some 0x37#8 ∧ State.reset.outLen.toNat ≤ 0 := by decide
/-- The last byte of the register window and the last slot, read whole. -/
theorem witness_WindowsDoNotOverlap :
    (Window.registers ≠ .sample ∧ 63 < Config.size .registers) ∧
    (Access.read32 .registers 60).kind = .form (.readSlot 15) ∧ 3 < (Access.read32 .registers 60).bytes := by decide
theorem witness_OtherAccessFormsAreRefused :
    let s := withProgram State.reset [.access (.write8 .output 0 1#8)]
    s.hostProgram = .access (.write8 .output 0 1#8) :: [] ∧
    (Access.write8 .output 0 1#8 = .read8 .registers 0 ∨ Access.write8 .output 0 1#8 = .write8 .registers 0 1#8 ∨
      Access.write8 .output 0 1#8 = .read8 .message 0 ∨ Access.write8 .output 0 1#8 = .write8 .message 0 1#8 ∨
      Access.write8 .output 0 1#8 = .write8 .output 0 1#8) ∧
    (Access.read32 .sample 0 = .read32 .sample 0) ∧ (1 % 4 ≠ 0 ∧ Access.read32 .registers 1 = .read32 .registers 1) := by
  decide
theorem witness_RegisterReadsReturnTheirSlot :
    let s := withProgram State.reset [.access (.read32 .registers (4 * 15))]
    15 < 16 ∧ s.state ≠ .busy ∧ s.hostProgram = .access (.read32 .registers (4 * 15)) :: [] := by decide
theorem witness_OnlyStatusIsReadWhileBusy :
    (withProgram serialising [.access (.read32 .registers 4)]).state = .busy ∧
    (withProgram serialising [.access (.read32 .registers 4)]).hostProgram = .access (.read32 .registers 4) :: [] ∧
    (withProgram serialising [.access (.read32 .registers 8)]).hostProgram = .access (.read32 .registers 8) :: [] ∧
    Access.read32 .registers 8 ≠ .read32 .registers 4 := by decide
theorem witness_ReservedAndReadOnlySlots :
    let r := withProgram State.reset [.access (.read32 .registers (4 * 8))]
    let w := withProgram State.reset [.access (.write32 .registers (4 * 15) 3#32)]
    let w' := withProgram State.reset [.access (.write32 .registers (4 * 1) 3#32)]
    (8 < 16 ∧ r.state ≠ .busy ∧ 8 ≤ 8 ∧ r.hostProgram = .access (.read32 .registers (4 * 8)) :: []) ∧
    (15 < 16 ∧ w.state ≠ .busy ∧ 15 ≠ 0 ∧ 15 ≠ 4 ∧ 15 ≠ 5 ∧
      w.hostProgram = .access (.write32 .registers (4 * 15) 3#32) :: []) ∧
    (1 < 16 ∧ w'.state ≠ .busy ∧ 1 ≠ 0 ∧ 1 ≠ 4 ∧ 1 ≠ 5 ∧
      w'.hostProgram = .access (.write32 .registers (4 * 1) 3#32) :: []) := by decide
theorem witness_LengthRegistersTakeLegalValues :
    State.reset.state ≠ .busy ∧
    (withProgram State.reset [opWr .bufLen 8#32]).hostProgram = opWr .bufLen 8#32 :: [] ∧
    (withProgram State.reset [opWr .msgLen 8#32]).hostProgram = opWr .msgLen 8#32 :: [] := by decide
theorem witness_StepRunsTheDecodedInstruction :
    let s := scanning (ones 9)
    s.phase = .extScan ∧ decode (.stream (slice s.lsbBit s.pos s.remaining)) = .instr .term [true] ∧
    s.hostProgram = [] ∧ (withProgram s [.wait]).hostProgram = .wait :: [] ∧
    (withProgram s [.poll]).hostProgram = .poll :: [] ∧ (withProgram s [.poll]).state = .busy ∧
    (withProgram State.reset [opWr .cmd 3#32]).state ≠ .busy ∧
    (withProgram State.reset [opWr .cmd 3#32]).hostProgram = opWr .cmd 3#32 :: [] := by decide
theorem witness_PollEndsWhenTheCommandHasEnded :
    (withProgram State.reset [.poll]).hostProgram = .poll :: [] ∧
    (withProgram State.reset.finishOk [.poll]).state = .done ∧
    (withProgram (State.reset.raise .illegalCommand 0#32) [.poll]).state = .error ∧
    (withProgram State.reset [.poll]).state = .idle ∧ (withProgram serialising [.poll]).state = .busy := by decide
theorem witness_ErrorPersistsUntilCommandOrReset :
    let s := withProgram (State.reset.raise .illegalCommand 3#32) [.wait]
    s.Control ∧ s.state = .error ∧ (∃ t, step s = .next t) ∧
    (∀ v rest, s.hostProgram ≠ .access (.write32 .registers 0 v) :: rest) ∧ (∀ rest, s.hostProgram ≠ .reset :: rest) := by
  exact ⟨by decide, by decide, ⟨_, rfl⟩, nofun, nofun⟩
theorem witness_ResetSetsEveryRegister : (withProgram writing [.reset]).hostProgram = .reset :: [] := by decide
theorem witness_ResetInTheWritePhaseKeepsTheWrittenBytes :
    let s := withProgram writing (List.replicate 8 .wait ++ [.reset])
    s.phase = .embWr ∧ s.widx = 0 ∧ 8 ≤ s.bits.length ∧ s.hostProgram = List.replicate 8 .wait ++ .reset :: [] := by decide
theorem witness_StepKeepsMemoryForm : writing.MemoryForm ∧ ∃ t, step writing = .next t := ⟨by decide, _, rfl⟩
theorem witness_StepKeepsControl : writing.Control ∧ ∃ t, step writing = .next t := ⟨by decide, _, rfl⟩
/-- A scan of the empty buffer: it meets the invariant whatever the capacities. -/
theorem witness_StepKeepsTheInvariant : (scanning []).Inv ∧ ∃ t, step (scanning []) = .next t := by
  refine ⟨⟨by decide, by decide, by decide, by decide, ?_⟩, _, rfl⟩
  simp [State.Sizes, scanning, loaded, memory, State.reset]
theorem witness_CoreNeverStops : State.reset.hostProgram = [] := by decide

end Sys2Proof.Tests
end

section
/-!
Frames of the seven instructions: what executing a stream token or a command word can make of the state, and from it
what each leaves as it was.
-/

namespace Sys2Proof.Machine

/-! ## Which instructions are tokens -/

/-- The stream tokens are the instructions with a pattern (spec/30_encoding.md R71). -/
theorem tokenBits_ne_nil_iff {i : Instr} :
    tokenBits i ≠ [] ↔ i = .term ∨ (∃ d, i = .digit d) ∨ (∃ o, i = .upper o) ∨ ∃ o, i = .lower o := by
  cases i <;> simp [tokenBits, terminator]

/-- The command words are the instructions without a pattern (spec/30_encoding.md R82). -/
theorem tokenBits_eq_nil_iff {i : Instr} :
    tokenBits i = [] ↔ i = .embed ∨ i = .extract ∨ ∃ v, i = .illegal v := by
  cases i <;> simp [tokenBits, terminator]

/-! ## The sample and message contents under the updates of a token and of `start()` -/

@[simp] theorem State.emit_sampleByte (s : State) (c : Byte) (w a : Nat) :
    (s.emit c w).sampleByte a = s.sampleByte a := rfl
@[simp] theorem State.scanError_sampleByte (s : State) (e : ErrCode) (a : Nat) :
    (s.scanError e).sampleByte a = s.sampleByte a := rfl
@[simp] theorem State.scanDone_sampleByte (s : State) (a : Nat) : s.scanDone.sampleByte a = s.sampleByte a := rfl
@[simp] theorem State.start_sampleByte (s : State) (p : Phase) (a : Nat) :
    (s.start p).sampleByte a = s.sampleByte a := rfl
@[simp] theorem State.start_msgEntry (s : State) (p : Phase) (a : Nat) : (s.start p).msgEntry a = s.msgEntry a := rfl

/-- A decode step stores in `OUT[K]` alone (spec/43_character_decoder.md R181). -/
theorem State.get?_emit_out_of_ne {s : State} {c : Byte} {w a : Nat} (h : a ≠ s.k) :
    Memory.get? (s.emit c w).out a = Memory.get? s.out a := by
  rw [State.emit_out, Memory.get?_set_of_ne _ _ h]

/-! ## What a token and a command word can do -/

/-- The scan step of a character token decodes a character or ends the scan in an error. -/
theorem decodeStep_emits_or_fails {w : Nat} {ch : Option Byte} {bad : ErrCode} {s t : State}
    (h : decodeStep w ch bad s = .next t) : (∃ c, t = s.emit c w) ∨ ∃ e, t = s.scanError e := by
  obtain ⟨-, ⟨-, rfl⟩ | ⟨-, c, -, rfl⟩ | ⟨-, -, rfl⟩⟩ := decodeStep_cases h
  · exact .inr ⟨_, rfl⟩
  · exact .inl ⟨c, rfl⟩
  · exact .inr ⟨_, rfl⟩

/-- A token decodes a character, ends the scan in an error, or ends it at the terminator (spec/43_character_decoder.md
R180 to R184). -/
theorem exec_token_cases {i : Instr} {s t : State} (hi : tokenBits i ≠ []) (h : exec i s = .next t) :
    (∃ c w, t = s.emit c w) ∨ (∃ e, t = s.scanError e) ∨ t = s.scanDone := by
  have ofDecodeStep {w ch bad} (hd : decodeStep w ch bad s = .next t) :
      (∃ c w, t = s.emit c w) ∨ (∃ e, t = s.scanError e) ∨ t = s.scanDone :=
    (decodeStep_emits_or_fails hd).imp (fun ⟨c, hc⟩ => ⟨c, w, hc⟩) .inl
  obtain rfl | ⟨d, rfl⟩ | ⟨o, rfl⟩ | ⟨o, rfl⟩ := tokenBits_ne_nil_iff.1 hi
  · obtain ⟨-, ⟨-, rfl⟩ | ⟨-, rfl⟩ | ⟨-, rfl⟩⟩ := execTerm_cases h
    · exact .inr (.inr rfl)
    · exact .inr (.inl ⟨_, rfl⟩)
    · exact .inr (.inl ⟨_, rfl⟩)
  · exact ofDecodeStep (w := 5) h
  · exact ofDecodeStep (w := 7) h
  · exact ofDecodeStep (w := 7) h

/-- A command word is taken only while STATE is not BUSY, and starts a command or enters the ERROR state at once
(spec/44_transport_commands.md R201, R207). -/
theorem exec_command_cases {i : Instr} {s t : State} (hi : tokenBits i = []) (h : exec i s = .next t) :
    s.state ≠ .busy ∧
      ((∃ p, t = s.start p) ∨
       ∃ v, t = { s with state := .error, errCode := .illegalCommand, errInfo := v, bitsLen := 0#32, outLen := 0#32,
                         epoch := s.epoch + 1 }) := by
  obtain rfl | rfl | ⟨v, rfl⟩ := tokenBits_eq_nil_iff.1 hi
  · exact (whenNotBusy_next.1 h).imp_right fun ht => .inl ⟨.embSer, ht⟩
  · exact (whenNotBusy_next.1 h).imp_right fun ht => .inl ⟨.extScan, ht⟩
  · exact (whenNotBusy_next.1 h).imp_right fun ht => .inr ⟨v, ht⟩

/-! ## The obligations -/

/-- Settles O24, by the three ways a token ends: only the decoded character is stored, and at `OUT[K]`. -/
theorem tokensLeaveTheRest : Obligations.TokensLeaveTheRest := by
  intro i s t hi h
  obtain ⟨c, w, rfl⟩ | ⟨e, rfl⟩ | rfl := exec_token_cases hi h
  · have hout : ∀ a, a ≠ s.k → Memory.get? (s.emit c w).out a = Memory.get? s.out a :=
      fun _ ha => State.get?_emit_out_of_ne ha
    simpa using hout
  · simp
  · simp

/-- Settles O34, by the two ways a command word is taken, neither of which stores anything in a memory. -/
theorem commandWritesLeaveTheRest : Obligations.CommandWritesLeaveTheRest := by
  intro i s t hi h
  obtain ⟨-, ⟨p, rfl⟩ | ⟨v, rfl⟩⟩ := exec_command_cases hi h
  · simp
  · simp [State.sampleByte, State.msgEntry]

end Sys2Proof.Machine
end

section
/-!
The invariant of the machine: each of its parts is kept by every effect a step can have.
-/

namespace Sys2Proof.Machine

/-! ## The sequencer steps of EMBED, by how they end -/

/-- A character's pattern has 5 or 7 bits (spec/30_encoding.md R71). -/
theorem length_of_encChar {c : Word} {p : Bits} (h : encChar c = some p) : p.length = 5 ∨ p.length = 7 := by
  unfold encChar tokenOf at h
  split at h <;> cases h <;> simp [tokenBits]

/-- The serialisation step appends a pattern, reports an unsupported character, or closes the bitstream
(spec/44_transport_commands.md R201). -/
theorem embSerStep_cases (s : State) :
    (s.k < s.msgLen.toNat ∧ ∃ p, encChar (s.msgEntry s.k) = some p ∧
      embSerStep s = { s with bits := s.bits ++ p, k := s.k + 1 }) ∨
    (s.k < s.msgLen.toNat ∧ encChar (s.msgEntry s.k) = none ∧
      embSerStep s = s.raise .unsupportedCharacter (BitVec.ofNat 32 s.k)) ∨
    (s.msgLen.toNat ≤ s.k ∧ embSerStep s = { s with bits := s.bits ++ terminator, phase := .embChk }) := by
  unfold embSerStep
  split
  · rename_i hk
    split
    · exact .inl ⟨hk, _, ‹_›, rfl⟩
    · exact .inr (.inl ⟨hk, ‹_›, rfl⟩)
  · exact .inr (.inr ⟨by omega, rfl⟩)

/-- The capacity step enters the write phase exactly when the bitstream fits (R202). -/
theorem embChkStep_cases (s : State) :
    (s.bits.length ≤ s.bufLen.toNat ∧ embChkStep s = { s with widx := 0, phase := .embWr }) ∨
    (s.bufLen.toNat < s.bits.length ∧
      embChkStep s = s.raise .capacityExceeded (BitVec.ofNat 32 s.bits.length)) := by
  unfold embChkStep packCheck
  by_cases h : s.bits.length ≤ s.bufLen.toNat
  · exact .inl ⟨h, by simp [h]⟩
  · exact .inr ⟨by omega, by simp [h]⟩

/-- The write step packs the bit at WIDX, or ends the command once every bit is written (R202). -/
theorem embWrStep_cases (s : State) :
    (s.widx < s.bits.length ∧ ∃ b, s.bits[s.widx]? = some b ∧
      embWrStep s = { s.packBit s.widx b with widx := s.widx + 1 }) ∨
    (s.bits.length ≤ s.widx ∧
      embWrStep s = { s with bitsLen := BitVec.ofNat 32 s.bits.length }.finishOk) := by
  unfold embWrStep
  split
  · rename_i b hb
    exact .inl ⟨(List.getElem?_eq_some_iff.1 hb).1, b, hb, rfl⟩
  · exact .inr ⟨List.getElem?_eq_none_iff.1 ‹_›, rfl⟩

/-! ## Control: STATE, PHASE and the result registers (spec/10_state.md R26, R27, R30, R31, R34) -/

theorem State.Control.phase_idle {s : State} (h : s.Control) (free : s.state ≠ .busy) : s.phase = .idle := h.1.2 free

theorem State.Control.busy {s : State} (h : s.Control) (running : s.phase ≠ .idle) : s.state = .busy := by
  by_contra hb
  exact running (h.1.2 hb)

theorem State.control_raise (s : State) {e : ErrCode} (he : e ≠ .noError) (info : Word) : (s.raise e info).Control := by
  simp [State.Control, he]

/-- Success keeps ERR_CODE and ERR_INFO, which a running command has cleared. -/
theorem State.Control.finishOk {s : State} (h : s.Control) (running : s.phase ≠ .idle) (bitsLen outLen : Word) :
    ({ s with bitsLen := bitsLen, outLen := outLen }.finishOk).Control := by
  have hb := h.busy running
  obtain ⟨-, herr, hinfo, -⟩ := h
  have hnone : s.errCode = .noError := herr.2 (by simp [hb])
  simp [State.Control, hnone, hinfo hnone]

/-- A step that keeps STATE, the result registers and that PHASE is not P_IDLE keeps Control. -/
theorem State.Control.of_phase {s t : State} (h : s.Control) (running : s.phase ≠ .idle) (hphase : t.phase ≠ .idle)
    (hkeep : t = { s with phase := t.phase, k := t.k, pos := t.pos, bits := t.bits, widx := t.widx,
                          sample := t.sample, out := t.out }) : t.Control := by
  have hb := h.busy running
  rw [hkeep]
  refine ⟨?_, h.2⟩
  simp [hphase, hb]

theorem control_embSerStep {s : State} (h : s.Control) (ser : s.phase = .embSer) : (embSerStep s).Control := by
  have running : s.phase ≠ .idle := by simp [ser]
  obtain ⟨-, p, -, ht⟩ | ⟨-, -, ht⟩ | ⟨-, ht⟩ := embSerStep_cases s <;> rw [ht]
  · exact h.of_phase running running rfl
  · exact s.control_raise (by decide) _
  · exact h.of_phase running (by simp) rfl

theorem control_embChkStep {s : State} (h : s.Control) (chk : s.phase = .embChk) : (embChkStep s).Control := by
  obtain ⟨-, ht⟩ | ⟨-, ht⟩ := embChkStep_cases s <;> rw [ht]
  · exact h.of_phase (by simp [chk]) (by simp) rfl
  · exact s.control_raise (by decide) _

theorem control_embWrStep {s : State} (h : s.Control) (wr : s.phase = .embWr) : (embWrStep s).Control := by
  have running : s.phase ≠ .idle := by simp [wr]
  obtain ⟨-, b, -, ht⟩ | ⟨-, ht⟩ := embWrStep_cases s <;> rw [ht]
  · exact h.of_phase running running rfl
  · exact h.finishOk running _ s.outLen

/-- Every effect of a step keeps Control. -/
theorem Effect.control {s t : State} (he : Effect s t) (h : s.Control) : t.Control := by
  cases he with
  | stayed | read | wroteSample | wroteMsg | wroteBufLen | wroteMsgLen => exact h
  | emitted c w scanning => exact h.of_phase (by simp [scanning]) (by simp [scanning]) rfl
  | scanFailed e _ isError => exact s.control_raise isError _
  | scanEnded scanning => exact h.finishOk (by simp [scanning]) _ _
  | serialised ser => exact control_embSerStep h ser
  | checked chk => exact control_embChkStep h chk
  | packed wr => exact control_embWrStep h wr
  | wasReset => simp [State.Control]
  | started p _ isCommand => obtain rfl | rfl := isCommand <;> simp [State.Control]
  | wasIllegal v free => simp [State.Control, h.phase_idle free]

/-! ## The canonical form of the memories -/

/-- Every effect of a step keeps the canonical form of every memory. -/
theorem Effect.memoryForm {s t : State} (he : Effect s t) (h : s.MemoryForm) : t.MemoryForm := by
  obtain ⟨hsample, hmsg, hout⟩ := id h
  cases he with
  | stayed | read | wroteBufLen | wroteMsgLen | scanFailed | scanEnded | wasReset | started | wasIllegal => exact h
  | emitted c w => exact ⟨hsample, hmsg, Memory.wf_set hout _ _⟩
  | serialised => obtain ⟨-, p, -, ht⟩ | ⟨-, -, ht⟩ | ⟨-, ht⟩ := embSerStep_cases s <;> rw [ht] <;> exact h
  | checked => obtain ⟨-, ht⟩ | ⟨-, ht⟩ := embChkStep_cases s <;> rw [ht] <;> exact h
  | packed =>
    obtain ⟨-, b, -, ht⟩ | ⟨-, ht⟩ := embWrStep_cases s <;> rw [ht]
    · exact ⟨Memory.wf_set hsample _ _, hmsg, hout⟩
    · exact h
  | wroteSample i v => exact ⟨Memory.wf_set hsample i v, hmsg, hout⟩
  | wroteMsg k v => exact ⟨hsample, Memory.wf_set hmsg k v, hout⟩

/-! ## The bounds of the hidden elements (R35 to R38) -/

/-- In P_IDLE the hidden elements have no bounds. -/
theorem State.bounds_of_idle {s : State} (h : s.phase = .idle) : s.Bounds := by simp [State.Bounds, h]

theorem State.bounds_embSer_iff {s : State} (h : s.phase = .embSer) :
    s.Bounds ↔ s.k ≤ s.msgLen.toNat ∧ 5 * s.k ≤ s.bits.length ∧ s.bits.length ≤ 7 * s.k := by simp [State.Bounds, h]

theorem State.bounds_embChk_iff {s : State} (h : s.phase = .embChk) :
    s.Bounds ↔ 8 ≤ s.bits.length ∧ s.bits.length ≤ 7 * s.msgLen.toNat + 8 := by simp [State.Bounds, h]

theorem State.bounds_embWr_iff {s : State} (h : s.phase = .embWr) :
    s.Bounds ↔ 8 ≤ s.bits.length ∧ s.widx ≤ s.bits.length ∧ s.bits.length ≤ s.bufLen.toNat := by simp [State.Bounds, h]

theorem State.bounds_extScan_iff {s : State} (h : s.phase = .extScan) :
    s.Bounds ↔ s.pos ≤ s.bufLen.toNat ∧ 5 * s.k ≤ s.pos := by simp [State.Bounds, h]

theorem bounds_embSerStep {s : State} (h : s.Bounds) (ser : s.phase = .embSer) : (embSerStep s).Bounds := by
  obtain ⟨hk, hlo, hhi⟩ := (State.bounds_embSer_iff ser).1 h
  obtain ⟨hlt, p, hp, ht⟩ | ⟨-, -, ht⟩ | ⟨hle, ht⟩ := embSerStep_cases s <;> rw [ht]
  · have hlen := length_of_encChar hp
    refine (State.bounds_embSer_iff (by exact ser)).2 ⟨Nat.succ_le_of_lt hlt, ?_, ?_⟩ <;>
      simp only [List.length_append] <;> omega
  · exact State.bounds_of_idle rfl
  · have hlen : terminator.length = 8 := rfl
    refine (State.bounds_embChk_iff rfl).2 ⟨?_, ?_⟩ <;> simp only [List.length_append] <;> omega

theorem bounds_embChkStep {s : State} (h : s.Bounds) (chk : s.phase = .embChk) : (embChkStep s).Bounds := by
  obtain ⟨hlo, -⟩ := (State.bounds_embChk_iff chk).1 h
  obtain ⟨hfits, ht⟩ | ⟨-, ht⟩ := embChkStep_cases s <;> rw [ht]
  · exact (State.bounds_embWr_iff rfl).2 ⟨hlo, Nat.zero_le _, hfits⟩
  · exact State.bounds_of_idle rfl

theorem bounds_embWrStep {s : State} (h : s.Bounds) (wr : s.phase = .embWr) : (embWrStep s).Bounds := by
  obtain ⟨hlo, -, hfits⟩ := (State.bounds_embWr_iff wr).1 h
  obtain ⟨hlt, b, -, ht⟩ | ⟨-, ht⟩ := embWrStep_cases s <;> rw [ht]
  · exact (State.bounds_embWr_iff (by exact wr)).2 ⟨hlo, Nat.succ_le_of_lt hlt, hfits⟩
  · exact State.bounds_of_idle rfl

/-- A decoded token of `w ≥ 5` bits keeps POS within the buffer and at least `5 * K`. -/
theorem bounds_emit {s : State} (h : s.Bounds) (scanning : s.phase = .extScan) (c : Byte) {w : Nat} (width : 5 ≤ w)
    (fits : w ≤ s.remaining) : (s.emit c w).Bounds := by
  obtain ⟨hpos, hk⟩ := (State.bounds_extScan_iff scanning).1 h
  rw [State.remaining] at fits
  refine (State.bounds_extScan_iff (s := s.emit c w) scanning).2 ⟨?_, ?_⟩ <;>
    simp only [State.emit_pos, State.emit_k, State.emit_bufLen] <;> omega

/-- Every effect of a step keeps the bounds: a host write of a length finds no command running. -/
theorem Effect.bounds {s t : State} (he : Effect s t) (hc : s.Control) (h : s.Bounds) : t.Bounds := by
  cases he with
  | stayed | read | wroteSample | wroteMsg | wasIllegal => exact h
  | wroteBufLen _ free | wroteMsgLen _ free => exact State.bounds_of_idle (hc.phase_idle free)
  | scanFailed | scanEnded | wasReset => exact State.bounds_of_idle rfl
  | emitted c w scanning width fits => exact bounds_emit h scanning c width fits
  | serialised ser => exact bounds_embSerStep h ser
  | checked chk => exact bounds_embChkStep h chk
  | packed wr => exact bounds_embWrStep h wr
  | started p _ isCommand => obtain rfl | rfl := isCommand <;> simp [State.Bounds]

/-! ## The recovered characters (R31, R36) -/

/-- A step that keeps OUT, leaves or stays out of the scan, and does not raise OUT_LEN keeps them. -/
theorem State.Recovered.of_out {s t : State} (h : s.Recovered) (hphase : t.phase ≠ .extScan) (hout : t.out = s.out)
    (hlen : t.outLen.toNat ≤ s.outLen.toNat) : t.Recovered := by
  refine ⟨fun hp => absurd hp hphase, fun j hj => ?_⟩
  rw [hout]
  exact h.2 j (hj.trans_le hlen)

/-- Every effect of a step keeps the recovered characters: a decoded one is the next, and TERM makes OUT_LEN their
number. -/
theorem Effect.recovered {s t : State} (he : Effect s t) (h : s.Recovered) : t.Recovered := by
  cases he with
  | stayed | read | wroteSample | wroteMsg | wroteBufLen | wroteMsgLen => exact h
  | wasIllegal v => exact ⟨h.1, by simp⟩
  | scanFailed | wasReset => exact h.of_out (by simp) rfl (by simp)
  | emitted c w scanning _ _ char =>
    have written {n : Nat} (hn : ∀ j < n, (Memory.get? s.out j).any isCharacter) {j : Nat} (hj : j = s.k ∨ j < n) :
        (Memory.get? (s.emit c w).out j).any isCharacter := by
      rw [State.emit_out, Memory.get?_set]
      split
      · exact char
      · exact hn j (hj.resolve_left ‹_›)
    refine ⟨fun _ j hj => written (h.1 scanning) ?_, fun j hj => written h.2 (.inr hj)⟩
    have : j < s.k + 1 := hj
    omega
  | scanEnded scanning =>
    refine ⟨by simp, fun j hj => h.1 scanning j (hj.trans_le ?_)⟩
    rw [State.scanDone_outLen, BitVec.toNat_ofNat]
    exact Nat.mod_le _ _
  | serialised ser =>
    obtain ⟨-, p, -, ht⟩ | ⟨-, -, ht⟩ | ⟨-, ht⟩ := embSerStep_cases s <;> rw [ht] <;>
      exact h.of_out (by simp [ser]) rfl (by simp)
  | checked chk =>
    obtain ⟨-, ht⟩ | ⟨-, ht⟩ := embChkStep_cases s <;> rw [ht] <;> exact h.of_out (by simp) rfl (by simp)
  | packed wr =>
    obtain ⟨-, b, -, ht⟩ | ⟨-, ht⟩ := embWrStep_cases s <;> rw [ht] <;> exact h.of_out (by simp [wr]) rfl (by simp)
  | started p => exact ⟨by simp, by simp⟩

/-! ## The capacities (R28, R29, spec/20_memory.md R50 to R52) -/

/-- A write below a bound keeps every listed location below it. -/
theorem Memory.forall_lt_set {w n : Nat} {m : Memory w} (h : ∀ e ∈ m, e.1 < n) {a : Nat} (ha : a < n) (v : BitVec w) :
    ∀ e ∈ Memory.set m a v, e.1 < n := by
  intro e he
  obtain rfl | he := Memory.mem_set he
  · exact ha
  · exact h e he

/-- Every effect of a step keeps the lengths and the written locations within the capacities: OUT has room for a
character for every 5 bits of the buffer (spec/00_scope.md R7). -/
theorem Effect.sizes {s t : State} (he : Effect s t) (hb : s.Bounds) (h : s.Sizes) : t.Sizes := by
  obtain ⟨hbuf, hmsg, hsample, hmsgIn, hout⟩ := id h
  cases he with
  | stayed | read | scanFailed | scanEnded | started | wasIllegal => exact h
  | wasReset => exact ⟨by simp, by simp, hsample, hmsgIn, hout⟩
  | wroteBufLen v _ legal => exact ⟨legal, hmsg, hsample, hmsgIn, hout⟩
  | wroteMsgLen v _ legal => exact ⟨hbuf, legal, hsample, hmsgIn, hout⟩
  | wroteSample i v _ inside => exact ⟨hbuf, hmsg, Memory.forall_lt_set hsample inside v, hmsgIn, hout⟩
  | wroteMsg k v _ inside => exact ⟨hbuf, hmsg, hsample, Memory.forall_lt_set hmsgIn inside v, hout⟩
  | emitted c w scanning width fits =>
    obtain ⟨hpos, hk⟩ := (State.bounds_extScan_iff scanning).1 hb
    have inside : s.k < Config.maxOut := by
      rw [State.remaining] at fits
      rw [Config.maxOut]
      omega
    exact ⟨hbuf, hmsg, hsample, hmsgIn, Memory.forall_lt_set hout inside c⟩
  | serialised => obtain ⟨-, p, -, ht⟩ | ⟨-, -, ht⟩ | ⟨-, ht⟩ := embSerStep_cases s <;> rw [ht] <;> exact h
  | checked => obtain ⟨-, ht⟩ | ⟨-, ht⟩ := embChkStep_cases s <;> rw [ht] <;> exact h
  | packed wr =>
    obtain ⟨-, -, hfits⟩ := (State.bounds_embWr_iff wr).1 hb
    obtain ⟨hlt, b, -, ht⟩ | ⟨-, ht⟩ := embWrStep_cases s <;> rw [ht]
    · exact ⟨hbuf, hmsg, Memory.forall_lt_set hsample (by omega) _, hmsgIn, hout⟩
    · exact h

/-! ## The obligations -/

/-- Every effect of a step keeps the invariant. -/
theorem Effect.inv {s t : State} (he : Effect s t) (h : s.Inv) : t.Inv := by
  obtain ⟨hform, hcontrol, hbounds, hrecovered, hsizes⟩ := h
  exact ⟨he.memoryForm hform, he.control hcontrol, he.bounds hcontrol hbounds, he.recovered hrecovered,
    he.sizes hbounds hsizes⟩

/-- Settles O58, part by part over the effects of a step; taking the operation off the host's program changes none of
the parts. -/
theorem stepKeepsTheInvariant : Obligations.StepKeepsTheInvariant := by
  intro s t h hs
  obtain ⟨rest, he⟩ := step_effect hs
  exact he.inv h

/-- Settles O57, over the effects of a step. -/
theorem stepKeepsControl : Obligations.StepKeepsControl := by
  intro s t h hs
  obtain ⟨rest, he⟩ := step_effect hs
  exact he.control h

end Sys2Proof.Machine
end

section
/-!
Steps of the core: the token a scan step fetches, what a sequencer step can do, and the instructions refused out of
place.
-/

namespace Sys2Proof.Machine

/-! ## The token at POS -/

/-- A stream holds stream tokens alone, no command word (spec/30_encoding.md R71, R82). -/
theorem tokenBits_ne_nil_of_decodeToken {b : Bits} {i : Instr} {rest : Bits} (h : decodeToken b = .instr i rest) :
    tokenBits i ≠ [] := by
  unfold decodeToken at h
  split at h
  · cases h
    simp [tokenBits, terminator]
  · split at h <;> cases h <;> simp [tokenBits]

/-- No token is wider than 8 bits, so the first 8 bits of a stream decide which stands there (R76). -/
theorem instr?_decodeToken_take (b : Bits) : (decodeToken (b.take 8)).instr? = (decodeToken b).instr? := by
  unfold decodeToken
  rw [List.take_take, Nat.min_self]
  split
  · rfl
  · match b with
    | [] => rfl
    | [_] => rfl
    | [_, _] => rfl
    | [_, _, _] => rfl
    | [_, _, _, _] => rfl
    | false :: _ :: _ :: _ :: _ :: _ => rfl
    | [true, _, _, _, _] => rfl
    | [true, _, _, _, _, _] => rfl
    | true :: false :: _ :: _ :: _ :: _ :: _ :: _ => rfl
    | true :: true :: _ :: _ :: _ :: _ :: _ :: _ => rfl

/-- The scan's window holds the token that the stream holds at POS (spec/43_character_decoder.md R180). -/
theorem decode_scanWindow {s : State} {i : Instr} {bits : Bits}
    (h : decode (.stream (slice s.lsbBit s.pos s.remaining)) = .instr i bits) :
    ∃ rest, decode (.stream s.scanWindow) = .instr i rest := by
  have htake := instr?_decodeToken_take (slice s.lsbBit s.pos s.remaining)
  rw [← scanWindow_eq_take] at htake
  simp only [decode] at h ⊢
  rw [h] at htake
  cases hw : decodeToken s.scanWindow with
  | instr j rest =>
    rw [hw] at htake
    cases htake
    exact ⟨rest, rfl⟩
  | exhausted =>
    rw [hw] at htake
    cases htake
  | truncated =>
    rw [hw] at htake
    cases htake

/-- In the scan the core executes the token that the stream holds at POS. -/
theorem carry_coreMove_of_decode {s : State} {i : Instr} {bits : Bits} (scanning : s.phase = .extScan)
    (h : decode (.stream (slice s.lsbBit s.pos s.remaining)) = .instr i bits) : carry (coreMove s) = exec i s := by
  obtain ⟨rest, hw⟩ := decode_scanWindow h
  rw [coreMove, scanning]
  simp only [scanMove, hw, carry]

/-! ## What a step of the core can do -/

/-- A scan step decodes a character, ends the scan in an error, or ends it at the terminator. -/
theorem scanMove_cases {s t : State} (h : carry (scanMove s) = .next t) :
    (∃ c w, t = s.emit c w) ∨ (∃ e, t = s.scanError e) ∨ t = s.scanDone := by
  unfold scanMove at h
  split at h
  · exact exec_token_cases (tokenBits_ne_nil_of_decodeToken ‹_›) h
  · cases h
    exact .inr (.inl ⟨_, rfl⟩)
  · cases h
    exact .inr (.inl ⟨_, rfl⟩)

/-- One sequencer step, by phase (spec/44_transport_commands.md R201, R202, R205). -/
theorem coreMove_cases {s t : State} (h : carry (coreMove s) = .next t) :
    (s.phase = .idle ∧ t = s) ∨ (s.phase = .embSer ∧ t = embSerStep s) ∨ (s.phase = .embChk ∧ t = embChkStep s) ∨
    (s.phase = .embWr ∧ t = embWrStep s) ∨
    (s.phase = .extScan ∧ ((∃ c w, t = s.emit c w) ∨ (∃ e, t = s.scanError e) ∨ t = s.scanDone)) := by
  unfold coreMove at h
  cases hp : s.phase <;> simp only [hp] at h
  case extScan => simpa using scanMove_cases h
  all_goals
    cases h
    simp

/-- What a step of the core may write: neither lengths nor MSG_IN nor what the host has read, in SAMPLE bit 0 of the
byte WIDX in the write phase, in OUT the entry K in the scan (R211). -/
abbrev WritesOnlyItsOwn (s t : State) : Prop :=
  t.bufLen = s.bufLen ∧ t.msgLen = s.msgLen ∧ t.msgIn = s.msgIn ∧ t.received = s.received ∧
  (∀ a, t.sampleByte a ≠ s.sampleByte a → s.phase = .embWr ∧ a = s.widx ∧
    t.sampleByte a &&& 0xFE#8 = s.sampleByte a &&& 0xFE#8) ∧
  (∀ a, Memory.get? t.out a ≠ Memory.get? s.out a → s.phase = .extScan ∧ a = s.k)

/-- A step that changes only registers and hidden elements writes no memory at all. -/
theorem writesOnlyItsOwn_of_quiet {s t : State}
    (h : t = { t with bufLen := s.bufLen, msgLen := s.msgLen, msgIn := s.msgIn, received := s.received,
                      sample := s.sample, out := s.out }) : WritesOnlyItsOwn s t := by
  rw [h]
  exact ⟨rfl, rfl, rfl, rfl, fun _ hne => absurd rfl hne, fun _ hne => absurd rfl hne⟩

theorem writesOnlyItsOwn_emit {s : State} (scanning : s.phase = .extScan) (c : Byte) (w : Nat) :
    WritesOnlyItsOwn s (s.emit c w) :=
  ⟨rfl, rfl, rfl, rfl, fun _ hne => absurd rfl hne,
    fun _ hne => ⟨scanning, not_not.1 fun ha => hne (State.get?_emit_out_of_ne ha)⟩⟩

theorem writesOnlyItsOwn_embWrStep {s : State} (wr : s.phase = .embWr) : WritesOnlyItsOwn s (embWrStep s) := by
  obtain ⟨-, b, -, ht⟩ | ⟨-, ht⟩ := embWrStep_cases s <;> rw [ht]
  · refine ⟨rfl, rfl, rfl, rfl, fun a hne => ?_, fun _ hne => absurd rfl hne⟩
    have hbyte : ({ s.packBit s.widx b with widx := s.widx + 1 }).sampleByte a
        = if a = s.widx then mergeLsb (s.sampleByte s.widx) b else s.sampleByte a := s.sampleByte_packBit s.widx a b
    rw [hbyte] at hne ⊢
    by_cases ha : a = s.widx
    · subst ha
      simp [wr]
    · simp [ha] at hne
  · exact writesOnlyItsOwn_of_quiet rfl

/-! ## The obligations -/

/-- Settles O40, by phase: only the write phase stores in SAMPLE, and only a decoded character in OUT. -/
theorem coreStepsWriteOnlyTheirOwn : Obligations.CoreStepsWriteOnlyTheirOwn := by
  intro s t hidle h
  rw [step_of_no_program hidle] at h
  suffices WritesOnlyItsOwn s t from this
  obtain ⟨-, rfl⟩ | ⟨-, rfl⟩ | ⟨-, rfl⟩ | ⟨wr, rfl⟩ | ⟨scanning, ⟨c, w, rfl⟩ | ⟨e, rfl⟩ | rfl⟩ := coreMove_cases h
  · exact writesOnlyItsOwn_of_quiet rfl
  · obtain ⟨-, p, -, ht⟩ | ⟨-, -, ht⟩ | ⟨-, ht⟩ := embSerStep_cases s <;> rw [ht] <;>
      exact writesOnlyItsOwn_of_quiet rfl
  · obtain ⟨-, ht⟩ | ⟨-, ht⟩ := embChkStep_cases s <;> rw [ht] <;> exact writesOnlyItsOwn_of_quiet rfl
  · exact writesOnlyItsOwn_embWrStep wr
  · exact writesOnlyItsOwn_emit scanning c w
  · exact writesOnlyItsOwn_of_quiet rfl
  · exact writesOnlyItsOwn_of_quiet rfl

theorem whenNotBusy_of_busy {s : State} (h : s.state = .busy) (t : State) :
    whenNotBusy s t = .refused .commandWhileBusy := if_pos h

theorem decodeStep_of_not_scanning {s : State} (h : s.phase ≠ .extScan) (w : Nat) (ch : Option Byte) (bad : ErrCode) :
    decodeStep w ch bad s = .refused .tokenOutsideScan := if_pos h

/-- Settles O33, through the two guards: `whenNotBusy` of the command words and the scan's of the tokens. -/
theorem instructionsOutOfPlaceAreRefused : Obligations.InstructionsOutOfPlaceAreRefused := by
  intro i s
  constructor
  · intro hi hbusy
    obtain rfl | rfl | ⟨v, rfl⟩ := tokenBits_eq_nil_iff.1 hi <;> exact whenNotBusy_of_busy hbusy _
  · intro hi hphase
    obtain rfl | ⟨d, rfl⟩ | ⟨o, rfl⟩ | ⟨o, rfl⟩ := tokenBits_ne_nil_iff.1 hi
    · exact if_pos hphase
    all_goals exact decodeStep_of_not_scanning hphase _ _ _

end Sys2Proof.Machine
end

section
/-!
Host accesses of the register window: what a read and a write of a slot do, and what is left to the host while BUSY.
-/

namespace Sys2Proof.Machine

/-! ## The access forms of a slot -/

/-- A 32-bit access at `REG_BASE + 4*n` reaches slot `n` (spec/10_state.md R23). -/
theorem kind_read32_registers {n : Nat} (h : n < 16) :
    (Access.read32 .registers (4 * n)).kind = .form (.readSlot n) := by
  simp [Access.kind, wordForm, h]

theorem kind_write32_registers {n : Nat} (h : n < 16) (v : Word) :
    (Access.write32 .registers (4 * n) v).kind = .form (.writeSlot n v) := by
  simp [Access.kind, wordForm, h]

/-- Only a 32-bit read at `REG_BASE + 4*n` reads slot `n`. -/
theorem eq_read32_registers_of_kind {a : Access} {n : Nat} (h : a.kind = .form (.readSlot n)) :
    a = .read32 .registers (4 * n) := by
  rcases a with ⟨_ | _ | _ | _, off⟩ | ⟨_ | _ | _ | _, off, v⟩ | ⟨_ | _ | _ | _, off⟩ | ⟨_ | _ | _ | _, off, v⟩ <;>
    simp only [Access.kind, wordForm, byteForm] at h <;> (repeat' split at h) <;> cases h
  congr
  omega

/-! ## One host access as a step -/

theorem step_of_access {s : State} {a : Access} {rest : List HostOp} (h : s.hostProgram = .access a :: rest) :
    step s = carry (hostAccess { s with hostProgram := rest } a) := by
  rw [step_eq_carry, nextMove, h]

/-- A host read of slot `n` records what the slot reads as; while BUSY only STATUS may be read (R33, R62). -/
theorem step_readSlot {s : State} {n : Nat} {rest : List HostOp} (hn : n < 16) (allowed : s.state = .busy → n = 1)
    (h : s.hostProgram = .access (.read32 .registers (4 * n)) :: rest) :
    step s = .next { s with hostProgram := rest, received := .word (s.readSlot (slotOf n)) :: s.received } := by
  have hfree : ¬ (s.state = .busy ∧ AccessForm.readSlot n ≠ .readSlot 1) := fun ⟨hb, hne⟩ => hne (by rw [allowed hb])
  rw [step_of_access h, hostAccess, kind_read32_registers hn]
  simp only [if_neg hfree]
  rfl

/-- A host write of slot `n` has the slot's own effect. -/
theorem step_writeSlot {s : State} {n : Nat} {v : Word} {rest : List HostOp} (hn : n < 16) (free : s.state ≠ .busy)
    (h : s.hostProgram = .access (.write32 .registers (4 * n) v) :: rest) :
    step s = carry (({ s with hostProgram := rest }).writeSlot v (slotOf n)) := by
  rw [step_of_access h, hostAccess, kind_write32_registers hn]
  simp [free, hostForm]

/-- While BUSY an access other than the read of STATUS has no next state (R33, spec/70_reset_and_hazards.md R264). -/
theorem hostAccess_of_busy {s : State} {a : Access} (hb : s.state = .busy) (ha : a ≠ .read32 .registers 4) (t : State) :
    carry (hostAccess s a) ≠ .next t := by
  unfold hostAccess
  split
  · nofun
  · nofun
  · rename_i f hf
    have hne : f ≠ .readSlot 1 := by
      rintro rfl
      exact ha (eq_read32_registers_of_kind hf)
    rw [if_pos ⟨hb, hne⟩]
    nofun

/-! ## The contents of the slots -/

/-- The slots from 8 on are reserved (R32). -/
theorem slotOf_of_eight_le {n : Nat} (h : 8 ≤ n) : slotOf n = .reserved := by
  obtain ⟨m, rfl⟩ := Nat.exists_eq_add_of_le' h
  rfl

/-- The slots other than CMD, BUF_LEN and MSG_LEN ignore a host write (R25 to R27, R30 to R32). -/
theorem writeSlot_of_readOnly (s : State) (v : Word) {n : Nat} (hcmd : n ≠ 0) (hbuf : n ≠ 4) (hmsg : n ≠ 5) :
    s.writeSlot v (slotOf n) = .settled (.next s) := by
  match n with
  | 0 | 4 | 5 => contradiction
  | 1 | 2 | 3 | 6 | 7 => rfl
  | n + 8 => rfl

/-! ## The obligations -/

/-- Settles O46, slot by slot. -/
theorem registerReadsReturnTheirSlot : Obligations.RegisterReadsReturnTheirSlot := by
  intro s n rest hn free h
  refine ⟨rfl, ?_⟩
  rw [step_readSlot hn (fun hb => absurd hb free) h]
  congr
  interval_cases n
  · rfl
  · cases hs : s.state
    case busy => exact absurd hs free
    all_goals simp [slotOf, State.readSlot, State.statusWord, CoreState.code, hs]
  all_goals rfl

/-- Settles O47: STATUS reads 1 while BUSY, and every other access is stopped. -/
theorem onlyStatusIsReadWhileBusy : Obligations.OnlyStatusIsReadWhileBusy := by
  intro s a rest hb h
  constructor
  · rintro rfl
    rw [step_readSlot (n := 1) (by decide) (fun _ => rfl) h]
    simp [slotOf, State.readSlot, State.statusWord, CoreState.code, hb]
  · intro ha t
    rw [step_of_access h]
    exact hostAccess_of_busy (s := { s with hostProgram := rest }) hb ha t

/-- Settles O48: every code of STATE fits bits 1:0 and every error code bits 2:0, and a write of a slot other than CMD
and the lengths is ignored. -/
theorem reservedAndReadOnlySlots : Obligations.ReservedAndReadOnlySlots := by
  intro s n v rest hn
  refine ⟨?_, ?_, ?_, ?_⟩
  · rw [State.readSlot, State.statusWord]
    cases s.state <;> decide
  · rw [State.readSlot, State.errCodeWord]
    cases s.errCode <;> decide
  · intro free hres h
    rw [step_readSlot hn (fun hb => absurd hb free) h, slotOf_of_eight_le hres]
    rfl
  · intro free hcmd hbuf hmsg h
    rw [step_writeSlot hn free h, writeSlot_of_readOnly _ v hcmd hbuf hmsg]
    rfl

/-- Settles O49, by whether the value is within the capacity. -/
theorem lengthRegistersTakeLegalValues : Obligations.LengthRegistersTakeLegalValues := by
  intro s v rest free
  constructor <;> intro h
  · rw [step_writeSlot (n := 4) (by decide) free h]
    simp only [slotOf, State.writeSlot, writeLength]
    split <;> rfl
  · rw [step_writeSlot (n := 5) (by decide) free h]
    simp only [slotOf, State.writeSlot, writeLength]
    split <;> rfl

/-- Settles O51: in a turn of the core the token at POS is executed, and a CMD write executes the word's command. -/
theorem stepRunsTheDecodedInstruction : Obligations.StepRunsTheDecodedInstruction := by
  intro s
  constructor
  · intro i bits scanning hd
    refine ⟨fun h => ?_, fun rest h => ?_, fun rest h hb => ?_⟩
    · rw [step_of_no_program h, carry_coreMove_of_decode scanning hd]
    · rw [step_of_coreTurn (.inr (.inl ⟨rest, h, rfl⟩))]
      exact carry_coreMove_of_decode (s := { s with hostProgram := rest }) scanning hd
    · have turn : s.CoreTurn s := .inr (.inr ⟨rest, h, by simp [hb], by simp [hb], rfl⟩)
      rw [step_of_coreTurn turn, carry_coreMove_of_decode scanning hd]
  · intro v rest free h
    exact step_writeSlot (n := 0) (by decide) free h

end Sys2Proof.Machine
end

section
/-!
The big-step commands: their results case by case, and that they depend on the lengths, the buffer and the message
alone.
-/

namespace Sys2Proof.Machine

/-! ## What SERIALIZE, DEC_CHAR and SCAN depend on -/

theorem serializeFrom_congr {msg msg' : Nat → Word} (n k : Nat) (acc : Bits)
    (h : ∀ j, k ≤ j → j < k + n → msg j = msg' j) : serializeFrom msg n k acc = serializeFrom msg' n k acc := by
  induction n generalizing k acc with
  | zero => rfl
  | succ n ih =>
    simp only [serializeFrom]
    rw [h k le_rfl (by omega)]
    split
    · exact ih _ _ fun j hkj hj => h j (by omega) (by omega)
    · rfl

/-- SERIALIZE reads the first `m` characters alone (spec/40_character_encoder.md R109). -/
theorem serialize_congr {msg msg' : Nat → Word} {m : Nat} (h : ∀ k < m, msg k = msg' k) :
    serialize msg m = serialize msg' m :=
  serializeFrom_congr m 0 [] fun j _ hj => h j (by omega)

theorem slice_congr {b b' : Nat → Bool} {p n : Nat} (h : ∀ i, p ≤ i → i < p + n → b i = b' i) :
    slice b p n = slice b' p n :=
  List.map_congr_left fun j hj => h (p + j) (by omega) (Nat.add_lt_add_left (List.mem_range.1 hj) p)

/-- DEC_CHAR reads the bits from its boundary to the end of the stream at most (spec/43_character_decoder.md R171). -/
theorem decChar_congr {b b' : Nat → Bool} {p l : Nat} (hp : p < l) (h : ∀ i, p ≤ i → i < l → b i = b' i) :
    decChar b p l = decChar b' p l := by
  unfold decChar
  rw [h p le_rfl hp]
  split <;> split
  · rfl
  · rw [slice_congr (b := b) (b' := b') fun i _ _ => h i (by omega) (by omega)]
  · rfl
  · rw [slice_congr (b := b) (b' := b') fun i _ _ => h i (by omega) (by omega), h (p + 1) (by omega) (by omega)]

/-- A character's token lies within the stream (R172 to R175). -/
theorem width_le_of_decChar {b : Nat → Bool} {p l : Nat} {c : Byte} {w : Nat} (h : decChar b p l = .char c w) :
    w ≤ l - p := by
  unfold decChar at h
  split at h <;> split at h
  · cases h
  · split at h <;> cases h
    omega
  · cases h
  · split at h <;> cases h
    omega

theorem scanFrom_congr {b b' : Nat → Bool} {l : Nat} (h : ∀ i < l, b i = b' i) (fuel p : Nat) (chars : List Byte)
    (hp : p ≤ l) : scanFrom b l fuel p chars = scanFrom b' l fuel p chars := by
  induction fuel generalizing p chars with
  | zero => rfl
  | succ fuel ih =>
    have hterm : (8 ≤ l - p ∧ slice b p 8 = terminator) ↔ (8 ≤ l - p ∧ slice b' p 8 = terminator) :=
      and_congr_right fun _ => by rw [slice_congr fun i _ _ => h i (by omega)]
    simp only [scanFrom, hterm]
    split
    · rfl
    · split
      · rfl
      · rw [← decChar_congr (b := b) (b' := b') (by omega) fun i _ hi => h i hi]
        split
        · have hw := width_le_of_decChar ‹_›
          exact ih _ _ (by omega)
        all_goals rfl

/-- SCAN reads the first `l` bits of the stream alone (R179 to R184). -/
theorem scan_congr {b b' : Nat → Bool} {l : Nat} (h : ∀ i < l, b i = b' i) : scan b l = scan b' l :=
  scanFrom_congr h (l + 1) 0 [] (Nat.zero_le l)

/-! ## PACK_WRITE and the writes of OUT -/

/-- PACK_WRITE writes SAMPLE alone (spec/41_lsb_packer.md R133). -/
theorem packFrom_eq (i : Nat) (bits : Bits) (s : State) :
    packFrom i bits s = { s with sample := (packFrom i bits s).sample } := by
  induction bits generalizing i s with
  | nil => rfl
  | cons b bits ih =>
    rw [packFrom, ih]
    rfl

theorem packWrite_eq (bits : Bits) (s : State) : packWrite bits s = { s with sample := (packWrite bits s).sample } :=
  packFrom_eq 0 bits s

/-- What PACK_WRITE leaves in a byte depends on that byte alone (R132). -/
theorem sampleByte_packFrom_congr {s s' : State} {j : Nat} (h : s.sampleByte j = s'.sampleByte j) (i : Nat)
    (bits : Bits) : (packFrom i bits s).sampleByte j = (packFrom i bits s').sampleByte j := by
  induction bits generalizing i s s' with
  | nil => exact h
  | cons b bits ih =>
    refine ih ?_ (i + 1)
    rw [State.sampleByte_packBit, State.sampleByte_packBit]
    split
    · subst_vars
      rw [h]
    · exact h

/-- The decode steps of EXTRACT write OUT alone (spec/43_character_decoder.md R181). -/
theorem writeOut_eq (k : Nat) (chars : List Byte) (s : State) :
    writeOut k chars s = { s with out := (writeOut k chars s).out } := by
  induction chars generalizing k s with
  | nil => rfl
  | cons c chars ih =>
    rw [writeOut, ih]
    rfl

theorem get?_writeOut_of_lt {k a : Nat} (h : a < k) (chars : List Byte) (s : State) :
    Memory.get? (writeOut k chars s).out a = Memory.get? s.out a := by
  induction chars generalizing k s with
  | nil => rfl
  | cons c chars ih =>
    rw [writeOut, ih (by omega), State.setOut_out, Memory.get?_set_of_ne _ _ (by omega)]

/-- The `j`-th character written from `OUT[k]` on is in `OUT[k + j]`. -/
theorem get?_writeOut_add {chars : List Byte} {j : Nat} {c : Byte} (h : chars[j]? = some c) (k : Nat) (s : State) :
    Memory.get? (writeOut k chars s).out (k + j) = some c := by
  induction chars generalizing k j s with
  | nil => simp at h
  | cons d chars ih =>
    cases j with
    | zero =>
      rw [writeOut, Nat.add_zero k, get?_writeOut_of_lt (Nat.lt_succ_self k), State.setOut_out, Memory.get?_set_self]
      exact h
    | succ j =>
      rw [writeOut, ← Nat.succ_add_eq_add_succ k j]
      exact ih h (k + 1) _

/-! ## The results of the commands, case by case (spec/44_transport_commands.md R203, R206) -/

theorem embedBigStep_of_unsupported {s : State} {k : Nat}
    (h : serialize s.msgEntry s.msgLen.toNat = .unsupported k) :
    embedBigStep s = (s.start .embSer).raise .unsupportedCharacter (BitVec.ofNat 32 k) := by
  have h0 : serialize (s.start .embSer).msgEntry (s.start .embSer).msgLen.toNat = .unsupported k := h
  simp only [embedBigStep, h0]

theorem embedBigStep_of_fits {s : State} {bits : Bits} (h : serialize s.msgEntry s.msgLen.toNat = .ok bits)
    (fits : bits.length ≤ s.bufLen.toNat) :
    embedBigStep s
      = { packWrite bits (s.start .embSer) with bitsLen := BitVec.ofNat 32 bits.length }.finishOk := by
  have h0 : serialize (s.start .embSer).msgEntry (s.start .embSer).msgLen.toNat = .ok bits := h
  have hcheck : packCheck bits.length (s.start .embSer).bufLen.toNat = true := decide_eq_true fits
  simp only [embedBigStep, h0, if_pos hcheck]

theorem embedBigStep_of_overflow {s : State} {bits : Bits} (h : serialize s.msgEntry s.msgLen.toNat = .ok bits)
    (tooLong : s.bufLen.toNat < bits.length) :
    embedBigStep s = (s.start .embSer).raise .capacityExceeded (BitVec.ofNat 32 bits.length) := by
  have h0 : serialize (s.start .embSer).msgEntry (s.start .embSer).msgLen.toNat = .ok bits := h
  have hcheck : packCheck bits.length (s.start .embSer).bufLen.toNat = false :=
    decide_eq_false (Nat.not_le_of_lt tooLong)
  simp only [embedBigStep, h0, hcheck, Bool.false_eq_true, if_false]

theorem extractBigStep_of_done {s : State} {chars : List Byte} {p : Nat}
    (h : scan s.lsbBit s.bufLen.toNat = .done chars p) :
    extractBigStep s
      = { writeOut 0 chars (s.start .extScan) with
          outLen := BitVec.ofNat 32 chars.length
          bitsLen := BitVec.ofNat 32 (p + 8) }.finishOk := by
  have h0 : scan (s.start .extScan).lsbBit (s.start .extScan).bufLen.toNat = .done chars p := h
  simp only [extractBigStep, h0]

theorem extractBigStep_of_failed {s : State} {e : ErrCode} {chars : List Byte} {p : Nat}
    (h : scan s.lsbBit s.bufLen.toNat = .failed e chars p) :
    extractBigStep s = (writeOut 0 chars (s.start .extScan)).raise e (BitVec.ofNat 32 p) := by
  have h0 : scan (s.start .extScan).lsbBit (s.start .extScan).bufLen.toNat = .failed e chars p := h
  simp only [extractBigStep, h0]

/-- OUT_LEN is at most the number of the characters that the scan decoded. -/
theorem outLen_extractBigStep_le {s : State} {chars : List Byte} {p : Nat}
    (h : scan s.lsbBit s.bufLen.toNat = .done chars p) : (extractBigStep s).outLen.toNat ≤ chars.length := by
  rw [extractBigStep_of_done h, State.finishOk_outLen, BitVec.toNat_ofNat]
  exact Nat.mod_le _ _

/-- Below OUT_LEN the host reads the characters that the scan decoded. -/
theorem getElem?_eq_outByte_extractBigStep {s : State} {chars : List Byte} {p j : Nat}
    (h : scan s.lsbBit s.bufLen.toNat = .done chars p) (hj : j < (extractBigStep s).outLen.toNat) :
    chars[j]? = some ((extractBigStep s).outByte j) := by
  have hchar := List.getElem?_eq_getElem (hj.trans_le (outLen_extractBigStep_le h))
  have hout := get?_writeOut_add hchar 0 (s.start .extScan)
  rw [Nat.zero_add] at hout
  rw [State.outByte, if_pos hj, extractBigStep_of_done h, State.finishOk_out, hout, hchar, Option.getD_some]

/-! ## Two states with the same lengths, buffer and message -/

section
variable {s s' : State} (hbuf : s.bufLen = s'.bufLen) (hmsg : s.msgLen = s'.msgLen)
include hbuf hmsg

/-- Two commands that raise the same error leave the same registers. -/
theorem readSlot_raise_start (p : Phase) (e : ErrCode) (info : Word) (slot : Slot) :
    ((s.start p).raise e info).readSlot slot = ((s'.start p).raise e info).readSlot slot := by
  cases slot <;> simp [State.readSlot, State.statusWord, State.errCodeWord, hbuf, hmsg]

/-- Two commands that succeed with the same BITS_LEN and OUT_LEN leave the same registers. -/
theorem readSlot_finishOk_start (p : Phase) (bitsLen outLen : Word) (slot : Slot) :
    ({ s.start p with bitsLen := bitsLen, outLen := outLen }.finishOk).readSlot slot
      = ({ s'.start p with bitsLen := bitsLen, outLen := outLen }.finishOk).readSlot slot := by
  cases slot <;> simp [State.readSlot, State.statusWord, State.errCodeWord, hbuf, hmsg]

/-- The result of EMBED is a function of the lengths and the message, and in each byte of that byte. -/
theorem embedBigStep_congr (hchars : ∀ k < s.msgLen.toNat, s.msgEntry k = s'.msgEntry k) :
    (∀ slot, (embedBigStep s).readSlot slot = (embedBigStep s').readSlot slot) ∧
    ∀ i, s.sampleByte i = s'.sampleByte i → (embedBigStep s).sampleByte i = (embedBigStep s').sampleByte i := by
  have hser := serialize_congr hchars
  rw [hmsg] at hser
  cases hs' : serialize s'.msgEntry s'.msgLen.toNat with
  | unsupported k =>
    have hs : serialize s.msgEntry s.msgLen.toNat = .unsupported k := by rw [hmsg, hser, hs']
    rw [embedBigStep_of_unsupported hs, embedBigStep_of_unsupported hs']
    exact ⟨readSlot_raise_start hbuf hmsg _ _ _, fun _ hi => hi⟩
  | ok bits =>
    have hs : serialize s.msgEntry s.msgLen.toNat = .ok bits := by rw [hmsg, hser, hs']
    by_cases fits : bits.length ≤ s.bufLen.toNat
    · rw [embedBigStep_of_fits hs fits, embedBigStep_of_fits hs' (hbuf ▸ fits)]
      refine ⟨fun slot => ?_, fun i hi =>
        sampleByte_packFrom_congr (s := s.start .embSer) (s' := s'.start .embSer) hi 0 bits⟩
      rw [packWrite_eq bits (s.start .embSer), packWrite_eq bits (s'.start .embSer)]
      exact readSlot_finishOk_start hbuf hmsg .embSer (BitVec.ofNat 32 bits.length) 0#32 slot
    · have tooLong := Nat.lt_of_not_le fits
      rw [embedBigStep_of_overflow hs tooLong, embedBigStep_of_overflow hs' (hbuf ▸ tooLong)]
      exact ⟨readSlot_raise_start hbuf hmsg _ _ _, fun _ hi => hi⟩

/-- The result of EXTRACT is a function of the lengths and the buffer. -/
theorem extractBigStep_congr (hbytes : ∀ i < s.bufLen.toNat, s.sampleByte i = s'.sampleByte i) :
    (∀ slot, (extractBigStep s).readSlot slot = (extractBigStep s').readSlot slot) ∧
    ∀ j < (extractBigStep s).outLen.toNat, (extractBigStep s).outByte j = (extractBigStep s').outByte j := by
  have hscan : scan s.lsbBit s.bufLen.toNat = scan s'.lsbBit s.bufLen.toNat :=
    scan_congr fun i hi => congrArg lsbOf (hbytes i hi)
  cases hs : scan s.lsbBit s.bufLen.toNat with
  | done chars p =>
    have hs' : scan s'.lsbBit s'.bufLen.toNat = .done chars p := by rw [← hbuf, ← hscan, hs]
    have hslots : ∀ slot, (extractBigStep s).readSlot slot = (extractBigStep s').readSlot slot := fun slot => by
      rw [extractBigStep_of_done hs, extractBigStep_of_done hs', writeOut_eq 0 chars (s.start .extScan),
        writeOut_eq 0 chars (s'.start .extScan)]
      exact readSlot_finishOk_start hbuf hmsg .extScan _ _ slot
    refine ⟨hslots, fun j hj => ?_⟩
    have hlen : (extractBigStep s).outLen = (extractBigStep s').outLen := hslots .outLen
    have hread := getElem?_eq_outByte_extractBigStep hs hj
    rw [getElem?_eq_outByte_extractBigStep hs' (hlen ▸ hj)] at hread
    exact (Option.some.inj hread).symm
  | failed e chars p =>
    have hs' : scan s'.lsbBit s'.bufLen.toNat = .failed e chars p := by rw [← hbuf, ← hscan, hs]
    rw [extractBigStep_of_failed hs, extractBigStep_of_failed hs', writeOut_eq 0 chars (s.start .extScan),
      writeOut_eq 0 chars (s'.start .extScan)]
    exact ⟨readSlot_raise_start hbuf hmsg .extScan e _, fun j hj => absurd hj (Nat.not_lt_zero j)⟩

end

/-- Settles O35, by the congruence of each command: SERIALIZE reads the message below MSG_LEN and SCAN the buffer below
BUF_LEN. -/
theorem commandResultsDependOnlyOnTheirInputs : Obligations.CommandResultsDependOnlyOnTheirInputs := by
  intro s s' hbuf hmsg hbytes hchars
  obtain ⟨hembed, hsample⟩ := embedBigStep_congr hbuf hmsg hchars
  obtain ⟨hextract, hout⟩ := extractBigStep_congr hbuf hmsg hbytes
  exact ⟨hembed, fun i hi => hsample i (hbytes i hi), hextract, hout⟩

end Sys2Proof.Machine
end

section
/-!
Host accesses of the memories and the address map (spec/20_memory.md R50 to R52, R59, R62, R63), and that the core alone
never stops (R60).
-/

namespace Sys2Proof.Machine

/-! ## Where an access form reaches -/

/-- A 32-bit access is a legal form exactly at a whole entry below the bound. -/
theorem wordForm_eq_form_iff {offset bound : Nat} {F : Nat → AccessForm} {f : AccessForm} :
    wordForm offset bound F = .form f ↔ offset % 4 = 0 ∧ offset / 4 < bound ∧ F (offset / 4) = f := by
  unfold wordForm
  by_cases ha : offset % 4 = 0 <;> by_cases hb : offset / 4 < bound <;> simp [ha, hb]

/-- An 8-bit access is a legal form exactly below the bound. -/
theorem byteForm_eq_form_iff {offset bound : Nat} {F : Nat → AccessForm} {f : AccessForm} :
    byteForm offset bound F = .form f ↔ offset < bound ∧ F offset = f := by
  unfold byteForm
  by_cases hb : offset < bound <;> simp [hb]

/-- At `4*i` a 32-bit access reaches the entry `i`, as an 8-bit access at `i` reaches the byte `i`. -/
theorem wordForm_mul (i bound : Nat) (F : Nat → AccessForm) : wordForm (4 * i) bound F = byteForm i bound F := by
  simp [wordForm, byteForm]

theorem wordForm_of_misaligned {offset : Nat} (h : offset % 4 ≠ 0) (bound : Nat) (F : Nat → AccessForm) :
    wordForm offset bound F = .badForm := if_pos h

/-- A legal access ends within its window (spec/20_memory.md R59, R63). -/
theorem offset_add_bytes_le_size {a : Access} {f : AccessForm} (h : a.kind = .form f) :
    a.offset + a.bytes ≤ Config.size a.window := by
  have ofWord {off bound size F} (hsize : 4 * bound = size) (hw : wordForm off bound F = .form f) : off + 4 ≤ size := by
    obtain ⟨haligned, hbelow, -⟩ := wordForm_eq_form_iff.1 hw
    omega
  have ofByte {off bound F} (hb : byteForm off bound F = .form f) : off + 1 ≤ bound := (byteForm_eq_form_iff.1 hb).1
  cases a with
  | read8 w off =>
    cases w with
    | registers | message => cases h
    | sample | output => exact ofByte h
  | write8 w off v =>
    cases w with
    | registers | message | output => cases h
    | sample => exact ofByte (F := (.writeSample · v)) h
  | read32 w off =>
    cases w with
    | sample | output => cases h
    | registers | message => exact ofWord rfl h
  | write32 w off v =>
    cases w with
    | sample | output => cases h
    | registers => exact ofWord (bound := 16) (F := (.writeSlot · v)) rfl h
    | message => exact ofWord (F := (.writeMsg · v)) rfl h

/-- A legal form of a read gives the host one value and changes nothing else (spec/20_memory.md R62). -/
theorem hostForm_of_read {w : Window} {off : Nat} {f : AccessForm}
    (h : (Access.read32 w off).kind = .form f ∨ (Access.read8 w off).kind = .form f) (s : State) :
    ∃ d, hostForm s f = .settled (.next (s.receive d)) := by
  obtain h | h := h
  · cases w with
    | sample | output => cases h
    | registers | message =>
      obtain ⟨-, -, rfl⟩ := wordForm_eq_form_iff.1 h
      exact ⟨_, rfl⟩
  · cases w with
    | registers | message => cases h
    | sample | output =>
      obtain ⟨-, rfl⟩ := byteForm_eq_form_iff.1 h
      exact ⟨_, rfl⟩

/-! ## A host access as a step, by what it is -/

/-- A form outside R59 is refused, whatever the state. -/
theorem step_of_badForm {s : State} {a : Access} {rest : List HostOp} (h : s.hostProgram = .access a :: rest)
    (bad : a.kind = .badForm) : step s = .refused .accessForm := by
  rw [step_of_access h, hostAccess, bad]
  rfl

/-- An access that answers a next state has a legal form, and does what the form does. -/
theorem exists_form_of_hostAccess {s t : State} {a : Access} (h : carry (hostAccess s a) = .next t) :
    ∃ f, a.kind = .form f ∧ carry (hostForm s f) = .next t := by
  unfold hostAccess at h
  split at h
  · cases h
  · cases h
  · split at h
    · cases h
    · exact ⟨_, ‹_›, h⟩

/-- With STATE not BUSY an access of the entry `i` does what its form does below the bound, and is a fault beyond. -/
theorem step_of_entry {s : State} {a : Access} {rest : List HostOp} (h : s.hostProgram = .access a :: rest)
    (free : s.state ≠ .busy) {i bound : Nat} (F : Nat → AccessForm) (hkind : a.kind = byteForm i bound F) :
    step s = if i < bound then carry (hostForm { s with hostProgram := rest } (F i)) else .fault .noSuchLocation := by
  rw [step_of_access h, hostAccess, hkind, byteForm]
  by_cases hi : i < bound
  · simp [hi, free]
  · simp only [if_neg hi]
    rfl

/-! ## A step of the core always has a next state -/

/-- In the scan the step of a character token has a next state. -/
theorem exists_decodeStep {s : State} (scanning : s.phase = .extScan) (w : Nat) (ch : Option Byte) (bad : ErrCode) :
    ∃ t, decodeStep w ch bad s = .next t := by
  unfold decodeStep
  rw [if_neg (not_not.2 scanning)]
  split
  · exact ⟨_, rfl⟩
  · cases ch with
    | some c => exact ⟨_, rfl⟩
    | none => exact ⟨_, rfl⟩

/-- In the scan every token has a next state. -/
theorem exists_exec_token {s : State} (scanning : s.phase = .extScan) {i : Instr} (hi : tokenBits i ≠ []) :
    ∃ t, exec i s = .next t := by
  obtain rfl | ⟨d, rfl⟩ | ⟨o, rfl⟩ | ⟨o, rfl⟩ := tokenBits_ne_nil_iff.1 hi
  · change ∃ t, execTerm s = .next t
    rw [execTerm, if_neg (not_not.2 scanning)]
    split
    · exact ⟨_, rfl⟩
    · split <;> exact ⟨_, rfl⟩
  all_goals exact exists_decodeStep scanning _ _ _

/-- The scan fetches no command word, so its move always has a next state. -/
theorem exists_scanMove {s : State} (scanning : s.phase = .extScan) : ∃ t, carry (scanMove s) = .next t := by
  unfold scanMove
  split
  · exact exists_exec_token scanning (tokenBits_ne_nil_of_decodeToken ‹_›)
  · exact ⟨_, rfl⟩
  · exact ⟨_, rfl⟩

/-! ## The obligations -/

/-- Settles O44: the bases keep the windows apart, and a legal access ends within its window. -/
theorem windowsDoNotOverlap : Obligations.WindowsDoNotOverlap := by
  refine ⟨rfl, rfl, rfl, rfl, ?_, ?_⟩
  · intro v w i j hvw hi hj
    exact Config.base_apart v v.mem_all w w.mem_all hvw i hi j hj
  · intro a f h i hi
    have hfits := offset_add_bytes_le_size h
    rw [Access.address]
    constructor <;> omega

/-- Settles O56, over the effects of a step. -/
theorem stepKeepsMemoryForm : Obligations.StepKeepsMemoryForm := by
  intro s t h hs
  obtain ⟨rest, he⟩ := step_effect hs
  exact he.memoryForm h

/-- Settles O41: a read that answers a next state has a legal form, and such a form only gives the host a value. -/
theorem hostReadsHaveNoSideEffect : Obligations.HostReadsHaveNoSideEffect := by
  intro s t w off rest hread hs
  suffices ∃ d, t = ({ s with hostProgram := rest }).receive d from this
  have ofAccess {a : Access} (ha : a = .read32 w off ∨ a = .read8 w off) (h : s.hostProgram = .access a :: rest) :
      ∃ d, t = ({ s with hostProgram := rest }).receive d := by
    rw [step_of_access h] at hs
    obtain ⟨f, hf, ht⟩ := exists_form_of_hostAccess hs
    obtain ⟨d, hd⟩ := hostForm_of_read (ha.imp (fun ha => ha ▸ hf) fun ha => ha ▸ hf) { s with hostProgram := rest }
    rw [hd] at ht
    cases ht
    exact ⟨d, rfl⟩
  obtain h | h := hread
  · exact ofAccess (.inl rfl) h
  · exact ofAccess (.inr rfl) h

/-- Settles O42, each access by the entry it reaches. -/
theorem hostReachesSampleAndMessageEntries : Obligations.HostReachesSampleAndMessageEntries := by
  intro s i rest free
  refine ⟨fun v h => ?_, fun h => ?_, fun v h => ?_, fun h => ?_⟩
  · exact step_of_entry h free (.writeSample · v) rfl
  · exact step_of_entry h free .readSample rfl
  · exact step_of_entry h free (.writeMsg · v) (wordForm_mul i _ (.writeMsg · v))
  · exact step_of_entry h free .readMsg (wordForm_mul i _ _)

/-- Settles O43, by whether the index is below OUT_LEN. -/
theorem hostReadsOfOutByOutLen : Obligations.HostReadsOfOutByOutLen := by
  intro s k rest free h
  have hstep : step s = if k < Config.maxOut then
      .next { s with hostProgram := rest, received := .byte (s.outByte k) :: s.received }
      else .fault .noSuchLocation := step_of_entry h free .readOut rfl
  constructor
  · intro c hk hc
    have hbyte : s.outByte k = c := by rw [State.outByte, if_pos hk, hc, Option.getD_some]
    rw [hstep, hbyte]
  · intro hk
    have hbyte : s.outByte k = Config.unspecifiedOut s.epoch k := if_neg (Nat.not_lt_of_le hk)
    rw [hstep, hbyte]

/-- Settles O45, each access by its kind. -/
theorem otherAccessFormsAreRefused : Obligations.OtherAccessFormsAreRefused := by
  intro s a rest h
  refine ⟨fun off v ha => step_of_badForm h ?_, fun off v ha => step_of_badForm h ?_,
    fun off v hoff ha => step_of_badForm h ?_⟩
  · obtain rfl | rfl | rfl | rfl | rfl := ha <;> rfl
  · obtain rfl | rfl | rfl | rfl := ha <;> rfl
  · obtain rfl | rfl | rfl | rfl := ha
    · exact wordForm_of_misaligned hoff _ _
    · exact wordForm_of_misaligned hoff _ (.writeSlot · v)
    · exact wordForm_of_misaligned hoff _ _
    · exact wordForm_of_misaligned hoff _ (.writeMsg · v)

/-- Settles O60, by phase: EMBED's steps are functions, and the scan executes stream tokens alone. -/
theorem coreNeverStops : Obligations.CoreNeverStops := by
  intro s hidle
  rw [step_of_no_program hidle, coreMove]
  cases hp : s.phase with
  | idle | embSer | embChk | embWr => exact ⟨_, rfl⟩
  | extScan => exact exists_scanMove hp

end Sys2Proof.Machine
end

section
/-!
Runs of a command in which the host waits, polls or reads STATUS (spec/20_memory.md R61): what holds at every moment of
them, and what SAMPLE is as EMBED and EXTRACT go on.
-/

namespace Sys2Proof.Machine

/-! ## Runs in which the host only waits -/

/-- The host waits, polls or reads STATUS, as it may while BUSY (spec/70_reset_and_hazards.md R264). -/
abbrev Waiting (program : List HostOp) : Prop := ∀ op ∈ program, op = .wait ∨ op = .poll ∨ op = opRd .status

/-- A step of the core takes nothing off the host's program. -/
theorem hostProgram_of_coreMove {s t : State} (h : carry (coreMove s) = .next t) : t.hostProgram = s.hostProgram := by
  obtain ⟨-, rfl⟩ | ⟨-, rfl⟩ | ⟨-, rfl⟩ | ⟨-, rfl⟩ | ⟨-, ⟨c, w, rfl⟩ | ⟨e, rfl⟩ | rfl⟩ := coreMove_cases h
  · rfl
  · obtain ⟨-, p, -, ht⟩ | ⟨-, -, ht⟩ | ⟨-, ht⟩ := embSerStep_cases s <;> simp [ht]
  · obtain ⟨-, ht⟩ | ⟨-, ht⟩ := embChkStep_cases s <;> simp [ht]
  · obtain ⟨-, b, -, ht⟩ | ⟨-, ht⟩ := embWrStep_cases s <;> simp [ht]
  all_goals rfl

/-- A step of the core, or one that gives the host a value and changes nothing else. -/
abbrev CoreStepOrRead (s t : State) : Prop :=
  (∃ program, carry (coreMove { s with hostProgram := program }) = .next t) ∨
  ∃ program d, t = { s with hostProgram := program, received := d :: s.received }

/-- While the host waits, a step is the core's or a read of STATUS, and the host goes on waiting. -/
theorem step_of_waiting {s t : State} (hwait : Waiting s.hostProgram) (h : step s = .next t) :
    Waiting t.hostProgram ∧ CoreStepOrRead s t := by
  have ofCore {program} (hw : Waiting program) (hc : carry (coreMove { s with hostProgram := program }) = .next t) :
      Waiting t.hostProgram ∧ CoreStepOrRead s t :=
    ⟨hostProgram_of_coreMove hc ▸ hw, .inl ⟨program, hc⟩⟩
  cases hp : s.hostProgram with
  | nil =>
    rw [step_of_no_program hp] at h
    exact ofCore hwait h
  | cons op rest =>
    have hrest : Waiting rest := fun o ho => hwait o (hp ▸ List.mem_cons_of_mem op ho)
    obtain rfl | rfl | rfl := hwait op (hp ▸ List.mem_cons_self)
    · rw [step_of_coreTurn (.inr (.inl ⟨rest, hp, rfl⟩))] at h
      exact ofCore hrest h
    · rw [step_eq_carry, nextMove, hp] at h
      simp only [pollMove] at h
      split at h
      · exact ofCore hwait h
      · exact ofCore hwait h
      all_goals
        cases h
        exact ⟨hrest, .inr ⟨rest, _, rfl⟩⟩
    · rw [step_readSlot (n := 1) (by decide) (fun _ => rfl) hp] at h
      cases h
      exact ⟨hrest, .inr ⟨rest, _, rfl⟩⟩

/-- What every step of the core keeps, and does not depend on the host, holds at every moment of a run in which the host
waits. -/
theorem run_of_waiting {P : State → Prop} (core_keeps : ∀ s t, P s → carry (coreMove s) = .next t → P t)
    (host_free : ∀ s program received, P s → P { s with hostProgram := program, received := received })
    {n : Nat} {s t : State} (hwait : Waiting s.hostProgram) (hs : P s) (h : Host.Core.run core n s = .next t) : P t := by
  induction n generalizing s with
  | zero =>
    cases h
    exact hs
  | succ n ih =>
    obtain ⟨u, hu, hrun⟩ := step_of_run_succ h
    obtain ⟨hwait', ⟨program, hcore⟩ | ⟨program, d, rfl⟩⟩ := step_of_waiting hwait hu
    · exact ih hwait' (core_keeps _ _ (host_free s program s.received hs) hcore) hrun
    · exact ih hwait' (host_free s program _ hs) hrun

/-- A run from a CMD write is a run from the state that the word's command answers. -/
theorem run_of_commandWrite {s t : State} {v : Word} {rest : List HostOp} {n : Nat} (free : s.state ≠ .busy)
    (h : s.hostProgram = opWr .cmd v :: rest) (hrun : Host.Core.run core (n + 1) s = .next t) :
    ∃ u, exec (decodeCommand v) { s with hostProgram := rest } = .next u ∧ Host.Core.run core n u = .next t := by
  obtain ⟨u, hu, hn⟩ := step_of_run_succ hrun
  rw [(stepRunsTheDecodedInstruction s).2 v rest free h] at hu
  exact ⟨u, hu, hn⟩

/-! ## What PACK_WRITE leaves in SAMPLE -/

theorem State.sampleByte_congr {s t : State} (h : t.sample = s.sample) (i : Nat) : t.sampleByte i = s.sampleByte i := by
  rw [State.sampleByte, State.sampleByte, h]

theorem State.msgEntry_congr {s t : State} (h : t.msgIn = s.msgIn) (k : Nat) : t.msgEntry k = s.msgEntry k := by
  rw [State.msgEntry, State.msgEntry, h]

theorem State.packBit_sample_congr {s t : State} (h : t.sample = s.sample) (i : Nat) (b : Bool) :
    (t.packBit i b).sample = (s.packBit i b).sample := by
  rw [State.packBit_sample, State.packBit_sample, State.sampleByte_congr h, h]

/-- The last bit is packed last (spec/41_lsb_packer.md R135). -/
theorem packFrom_concat (i : Nat) (bits : Bits) (b : Bool) (s : State) :
    packFrom i (bits ++ [b]) s = (packFrom i bits s).packBit (i + bits.length) b := by
  induction bits generalizing i s with
  | nil => rfl
  | cons c bits ih =>
    rw [List.cons_append, packFrom, ih, packFrom, List.length_cons, Nat.succ_add_eq_add_succ]

theorem packWrite_concat (bits : Bits) (b : Bool) (s : State) :
    packWrite (bits ++ [b]) s = (packWrite bits s).packBit bits.length b := by
  rw [packWrite, packFrom_concat, Nat.zero_add, packWrite]

/-- The byte `i` takes the bit `i` of the bitstream, and stays beyond its end (R132, R133). -/
theorem sampleByte_packWrite (bits : Bits) (s : State) (i : Nat) :
    (packWrite bits s).sampleByte i = bits[i]?.elim (s.sampleByte i) (mergeLsb (s.sampleByte i)) := by
  induction bits using List.reverseRecOn with
  | nil => rfl
  | append_singleton bits b ih =>
    rw [packWrite_concat, State.sampleByte_packBit]
    split
    · subst_vars
      simp [ih]
    · rename_i hne
      rw [ih]
      obtain hlt | hgt := Nat.lt_or_gt_of_ne hne
      · rw [List.getElem?_append_left hlt]
      · rw [List.getElem?_eq_none (by omega), List.getElem?_eq_none (by simp; omega)]

theorem mergeLsb_eq_or_ite (v : Byte) (b : Bool) : mergeLsb v b = (v &&& 0xFE#8) ||| (if b then 1#8 else 0#8) := by
  cases b <;> rfl

/-! ## How far an EMBED has come -/

/-- `t` is a moment of an EMBED that was started in `s`: by phase, what has been serialised and what has been written
to SAMPLE (spec/44_transport_commands.md R201, R202). -/
inductive Embedding (s t : State) : Prop where
  | serialising (phase : t.phase = .embSer) (state : t.state = .busy) (unwritten : t.sample = s.sample)
      (message : t.msgIn = s.msgIn) (length : t.msgLen = s.msgLen)
      (pending : serializeFrom s.msgEntry (s.msgLen.toNat - t.k) t.k t.bits = serialize s.msgEntry s.msgLen.toNat)
  | checking (phase : t.phase = .embChk) (state : t.state = .busy) (unwritten : t.sample = s.sample)
      (serialised : serialize s.msgEntry s.msgLen.toNat = .ok t.bits)
  | writing (phase : t.phase = .embWr) (state : t.state = .busy)
      (serialised : serialize s.msgEntry s.msgLen.toNat = .ok t.bits)
      (written : t.sample = (packWrite (t.bits.take t.widx) s).sample)
  | succeeded (phase : t.phase = .idle) (state : t.state = .done) (bits : Bits)
      (serialised : serialize s.msgEntry s.msgLen.toNat = .ok bits) (written : t.sample = (packWrite bits s).sample)
  | failed (phase : t.phase = .idle) (state : t.state = .error) (unwritten : t.sample = s.sample)

theorem embedding_start (s : State) (rest : List HostOp) :
    Embedding s (({ s with hostProgram := rest }).start .embSer) :=
  .serialising rfl rfl rfl rfl rfl rfl

theorem Embedding.host_free {s t : State} (h : Embedding s t) (program : List HostOp) (received : List HostData) :
    Embedding s { t with hostProgram := program, received := received } := by
  cases h with
  | serialising phase state unwritten message length pending =>
    exact .serialising phase state unwritten message length pending
  | checking phase state unwritten serialised => exact .checking phase state unwritten serialised
  | writing phase state serialised written => exact .writing phase state serialised written
  | succeeded phase state bits serialised written => exact .succeeded phase state bits serialised written
  | failed phase state unwritten => exact .failed phase state unwritten

/-- A serialisation step carries out one turn of SERIALIZE's loop. -/
theorem embedding_embSerStep {s t : State} (phase : t.phase = .embSer) (state : t.state = .busy)
    (unwritten : t.sample = s.sample) (message : t.msgIn = s.msgIn) (length : t.msgLen = s.msgLen)
    (pending : serializeFrom s.msgEntry (s.msgLen.toNat - t.k) t.k t.bits = serialize s.msgEntry s.msgLen.toNat) :
    Embedding s (embSerStep t) := by
  obtain ⟨hk, p, hp, ht⟩ | ⟨-, -, ht⟩ | ⟨hk, ht⟩ := embSerStep_cases t <;> rw [ht]
  · rw [length] at hk
    rw [State.msgEntry_congr message] at hp
    obtain ⟨m, hm⟩ : ∃ m, s.msgLen.toNat - t.k = m + 1 := Nat.exists_eq_succ_of_ne_zero (by omega)
    have hnext : s.msgLen.toNat - (t.k + 1) = m := by omega
    refine .serialising phase state unwritten message length ?_
    simp only [hm, serializeFrom, hp] at pending
    simpa only [hnext] using pending
  · exact .failed rfl rfl unwritten
  · rw [length] at hk
    rw [Nat.sub_eq_zero_of_le hk, serializeFrom] at pending
    exact .checking rfl state unwritten pending.symm

/-- A write step packs one bit more, or finds that all are packed. -/
theorem embedding_embWrStep {s t : State} (phase : t.phase = .embWr) (state : t.state = .busy)
    (serialised : serialize s.msgEntry s.msgLen.toNat = .ok t.bits)
    (written : t.sample = (packWrite (t.bits.take t.widx) s).sample) : Embedding s (embWrStep t) := by
  obtain ⟨hlt, b, hb, ht⟩ | ⟨hle, ht⟩ := embWrStep_cases t <;> rw [ht]
  · refine .writing phase state serialised ?_
    have htake : t.bits.take (t.widx + 1) = t.bits.take t.widx ++ [b] := by
      rw [List.take_add_one, hb, Option.toList_some]
    calc (t.packBit t.widx b).sample
        = ((packWrite (t.bits.take t.widx) s).packBit t.widx b).sample := State.packBit_sample_congr written _ _
      _ = (packWrite (t.bits.take (t.widx + 1)) s).sample := by
        rw [htake, packWrite_concat, List.length_take_of_le hlt.le]
  · rw [List.take_of_length_le hle] at written
    exact .succeeded rfl rfl t.bits serialised written

/-- Every step of the core takes an EMBED on to its next moment, and keeps it as it is once it has ended. -/
theorem Embedding.coreMove {s t u : State} (h : Embedding s t) (hu : carry (coreMove t) = .next u) : Embedding s u := by
  cases id h with
  | serialising phase state unwritten message length pending =>
    rw [Machine.coreMove, phase] at hu
    cases hu
    exact embedding_embSerStep phase state unwritten message length pending
  | checking phase state unwritten serialised =>
    rw [Machine.coreMove, phase] at hu
    cases hu
    obtain ⟨-, ht⟩ | ⟨-, ht⟩ := embChkStep_cases t <;> rw [ht]
    · exact .writing rfl state serialised unwritten
    · exact .failed rfl rfl unwritten
  | writing phase state serialised written =>
    rw [Machine.coreMove, phase] at hu
    cases hu
    exact embedding_embWrStep phase state serialised written
  | succeeded phase | failed phase =>
    rw [Machine.coreMove, phase] at hu
    cases hu
    exact h

/-- An EMBED in ERROR has written nothing. -/
theorem Embedding.sample_of_error {s t : State} (h : Embedding s t) (herror : t.state = .error) :
    t.sample = s.sample := by
  cases h with
  | failed _ _ unwritten => exact unwritten
  | serialising _ state | checking _ state | writing _ state | succeeded _ state => simp [state] at herror

/-- An EMBED in DONE has packed the whole bitstream of the message. -/
theorem Embedding.sample_of_done {s t : State} (h : Embedding s t) (hdone : t.state = .done) :
    ∃ bits, serialize s.msgEntry s.msgLen.toNat = .ok bits ∧ t.sample = (packWrite bits s).sample := by
  cases h with
  | succeeded _ _ bits serialised written => exact ⟨bits, serialised, written⟩
  | serialising _ state | checking _ state | writing _ state | failed _ state => simp [state] at hdone

/-! ## An EXTRACT never writes SAMPLE -/

/-- `t` is a moment of an EXTRACT that was started in `s`: it scans or has ended, and SAMPLE is unwritten. -/
abbrev Extracting (s t : State) : Prop := (t.phase = .extScan ∨ t.phase = .idle) ∧ t.sample = s.sample

theorem Extracting.coreMove {s t u : State} (h : Extracting s t) (hu : carry (coreMove t) = .next u) :
    Extracting s u := by
  obtain ⟨hphase, hsample⟩ := id h
  obtain ⟨-, rfl⟩ | ⟨hp, -⟩ | ⟨hp, -⟩ | ⟨hp, -⟩ | ⟨scanning, ⟨c, w, rfl⟩ | ⟨e, rfl⟩ | rfl⟩ := coreMove_cases hu
  · exact h
  iterate 3 simp [hp] at hphase
  · exact ⟨.inl scanning, hsample⟩
  · exact ⟨.inr rfl, hsample⟩
  · exact ⟨.inr rfl, hsample⟩

/-! ## The obligation -/

/-- Settles O39: the moments of an EMBED are those of `Embedding`, which hold the unwritten buffer until the write phase
and the packed one at its end, and those of an EXTRACT hold the buffer as it was. -/
theorem commandsAreAllOrNothingOnSample : Obligations.CommandsAreAllOrNothingOnSample := by
  intro s t rest n free hwait
  constructor
  · intro h hrun
    obtain ⟨u, hu, hn⟩ := run_of_commandWrite free h hrun
    obtain ⟨-, rfl⟩ := whenNotBusy_next.1 hu
    have hembedding : Embedding s t := run_of_waiting (P := Embedding s) (fun _ _ => Embedding.coreMove)
      (fun _ program received he => he.host_free program received) hwait (embedding_start s rest) hn
    refine ⟨fun herror => State.sampleByte_congr (hembedding.sample_of_error herror), fun hdone => ?_⟩
    obtain ⟨bits, hser, hsample⟩ := hembedding.sample_of_done hdone
    refine ⟨bits, hser, fun i => ?_⟩
    rw [State.sampleByte_congr hsample, sampleByte_packWrite]
    cases bits[i]? with
    | none => rfl
    | some b => exact mergeLsb_eq_or_ite _ b
  · intro h hrun
    obtain ⟨u, hu, hn⟩ := run_of_commandWrite free h hrun
    obtain ⟨-, rfl⟩ := whenNotBusy_next.1 hu
    have hstart : Extracting s (({ s with hostProgram := rest }).start .extScan) := ⟨.inl rfl, rfl⟩
    have hextracting : Extracting s t := run_of_waiting (P := Extracting s) (fun _ _ => Extracting.coreMove)
      (fun _ _ _ he => he) hwait hstart hn
    exact State.sampleByte_congr hextracting.2

end Sys2Proof.Machine
end

section
/-!
Encodings: the decoder and the encoder as inverses, the patterns of the supported characters, and the bitstream of a
message with its length.
-/

namespace Sys2Proof

/-! ## Payloads as bit sequences -/

/-- A payload is read back from its bit sequence (spec/30_encoding.md R72). -/
@[simp] theorem ofNat_valueOf_bin {n : Nat} (x : BitVec n) : BitVec.ofNat n (valueOf (bin n x.toNat)) = x := by
  rw [valueOf_bin, Nat.mod_eq_of_lt x.isLt, BitVec.ofNat_toNat, BitVec.setWidth_eq]

/-- The bit sequence of the payload that was read from `s` is `s` (R72). -/
theorem bin_toNat_ofNat_valueOf (s : Bits) : bin s.length (BitVec.ofNat s.length (valueOf s)).toNat = s := by
  rw [BitVec.toNat_ofNat, Nat.mod_eq_of_lt (valueOf_lt s), bin_valueOf]

/-! ## The token at the start of a stream -/

theorem decodeToken_term (rest : Bits) : decodeToken (terminator ++ rest) = .instr .term rest := rfl

/-- A stream is eight ones and more exactly when its first 8 bits are all there and all ones (R75, R76). -/
theorem take_eight_eq_terminator_iff (b : Bits) :
    b.take 8 = terminator ↔ 8 ≤ b.length ∧ b.take 8 = List.replicate 8 true := by
  refine ⟨fun h => ⟨?_, h⟩, And.right⟩
  have hlen := congrArg List.length h
  rw [List.length_take, terminator, List.length_replicate] at hlen
  omega

theorem decodeToken_digit {s : Bits} (hs : s.length = 4) (rest : Bits) :
    decodeToken (false :: s ++ rest) = .instr (.digit (BitVec.ofNat 4 (valueOf s))) rest :=
  match s, hs with
  | [_, _, _, _], _ => rfl

theorem decodeToken_upper {s : Bits} (hs : s.length = 5) (rest : Bits) :
    decodeToken (true :: false :: s ++ rest) = .instr (.upper (BitVec.ofNat 5 (valueOf s))) rest :=
  match s, hs with
  | [_, _, _, _, _], _ => rfl

/-- Seven ones are LOWER 31 only where no eighth one follows (R75). -/
theorem decodeToken_lower {s rest : Bits} (hs : s.length = 5)
    (notTerm : s = List.replicate 5 true → rest.head? ≠ some true) :
    decodeToken (true :: true :: s ++ rest) = .instr (.lower (BitVec.ofNat 5 (valueOf s))) rest := by
  have hterm : (true :: true :: s ++ rest).take 8 ≠ terminator := by
    intro h
    match s, hs, rest with
    | [_, _, _, _, _], _, [] => simp [terminator, List.replicate] at h
    | [_, _, _, _, _], _, r :: _ =>
      simp only [terminator, List.cons_append, List.nil_append, List.take_succ_cons, List.take_zero, List.replicate,
        List.cons.injEq, true_and, and_true] at h
      obtain ⟨rfl, rfl, rfl, rfl, rfl, rfl⟩ := h
      exact notTerm rfl rfl
  unfold decodeToken
  rw [if_neg hterm]
  match s, hs with
  | [_, _, _, _, _], _ => rfl

/-- A token's code followed by more of the stream is its pattern followed by it (R71). -/
theorem followedBy_encode {i : Instr} (hi : tokenBits i ≠ []) (rest : Bits) :
    (encode i).followedBy rest = .stream (tokenBits i ++ rest) := by
  obtain rfl | ⟨d, rfl⟩ | ⟨o, rfl⟩ | ⟨o, rfl⟩ := Machine.tokenBits_ne_nil_iff.1 hi <;> rfl

/-- Only the offset 31 is five ones. -/
theorem eq_31_of_bin_eq_ones {o : BitVec 5} (h : bin 5 o.toNat = List.replicate 5 true) : o = 31#5 := by
  rw [← ofNat_valueOf_bin o, h]
  decide

/-- Settles O3, by the token: a pattern's payload is read back from its bits. -/
theorem decodeOfEncodedTokenIsTheToken : Obligations.DecodeOfEncodedTokenIsTheToken := by
  intro i rest hi notTerm
  rw [followedBy_encode hi]
  change decodeToken (tokenBits i ++ rest) = .instr i rest
  obtain rfl | ⟨d, rfl⟩ | ⟨o, rfl⟩ | ⟨o, rfl⟩ := Machine.tokenBits_ne_nil_iff.1 hi
  · exact decodeToken_term rest
  · rw [tokenBits, decodeToken_digit (length_bin 4 _), ofNat_valueOf_bin]
  · rw [tokenBits, decodeToken_upper (length_bin 5 _), ofNat_valueOf_bin]
  · have hones : bin 5 o.toNat = List.replicate 5 true → rest.head? ≠ some true :=
      fun h => notTerm (congrArg Instr.lower (eq_31_of_bin_eq_ones h))
    rw [tokenBits, decodeToken_lower (length_bin 5 _) hones, ofNat_valueOf_bin]

/-- Settles O2: where the stream is not TERM, its first bits and its length choose the arm of the decoder. -/
theorem tokenAtABoundaryFollowsTheLengthRule : Obligations.TokenAtABoundaryFollowsTheLengthRule := by
  intro b
  change decodeToken b = _
  unfold decodeToken
  simp only [take_eight_eq_terminator_iff]
  split
  · rfl
  · match b with
    | [] => rfl
    | [_] => simp
    | [_, _] => simp
    | [_, _, _] => simp
    | [_, _, _, _] => simp
    | false :: _ :: _ :: _ :: _ :: _ => simp
    | [true, _, _, _, _] => simp
    | [true, _, _, _, _, _] => simp
    | true :: false :: _ :: _ :: _ :: _ :: _ :: _ => simp
    | true :: true :: _ :: _ :: _ :: _ :: _ :: _ => simp

/-- Settles O4, by the arms of the decoder: each writes again the payload bits it has read. -/
theorem decodedTokenIsWhatStandsThere : Obligations.DecodedTokenIsWhatStandsThere := by
  intro b i rest h
  change decodeToken b = .instr i rest at h
  unfold decodeToken at h
  split at h
  next hterm =>
    cases h
    rw [tokenBits, ← hterm, List.take_append_drop]
  next =>
    split at h <;> cases h
    next d3 d2 d1 d0 _ => exact congrArg (false :: · ++ rest) (bin_toNat_ofNat_valueOf [d3, d2, d1, d0])
    next o4 o3 o2 o1 o0 _ =>
      exact congrArg (true :: false :: · ++ rest) (bin_toNat_ofNat_valueOf [o4, o3, o2, o1, o0])
    next o4 o3 o2 o1 o0 _ =>
      exact congrArg (true :: true :: · ++ rest) (bin_toNat_ofNat_valueOf [o4, o3, o2, o1, o0])

/-! ## CMD words and the words of the tables -/

/-- Settles O1, by the two words that name a command. -/
theorem commandWordsDecodeInFull : Obligations.CommandWordsDecodeInFull := by
  intro v
  refine ⟨rfl, ?_⟩
  unfold decodeCommand
  split
  next h => rw [h, encode]
  next =>
    split
    next h => rw [h, encode]
    next => rfl

/-- Settles O5: the decoder evaluated on each of the seven words. -/
theorem writtenOutWordsDecode : Obligations.WrittenOutWordsDecode := by
  unfold Obligations.WrittenOutWordsDecode
  decide

end Sys2Proof

namespace Sys2Proof.Machine

/-! ## The patterns of the characters -/

theorem classify_eq_digit_iff {c : Word} : classify c = .digit ↔ 0x30 ≤ c.toNat ∧ c.toNat ≤ 0x39 := by
  unfold classify
  split_ifs <;> simp <;> omega

theorem classify_eq_upper_iff {c : Word} : classify c = .upper ↔ 0x41 ≤ c.toNat ∧ c.toNat ≤ 0x5A := by
  unfold classify
  split_ifs <;> simp <;> omega

theorem classify_eq_lower_iff {c : Word} : classify c = .lower ↔ 0x61 ≤ c.toNat ∧ c.toNat ≤ 0x7A := by
  unfold classify
  split_ifs <;> simp <;> omega

/-- The pattern of a code point by its class (spec/40_character_encoder.md R102 to R105). -/
theorem encChar_cases (c : Word) :
    (classify c = .digit ∧ encChar c = some (tokenBits (.digit (BitVec.ofNat 4 (c.toNat - 0x30))))) ∨
    (classify c = .upper ∧ encChar c = some (tokenBits (.upper (BitVec.ofNat 5 (c.toNat - 0x41))))) ∨
    (classify c = .lower ∧ encChar c = some (tokenBits (.lower (BitVec.ofNat 5 (c.toNat - 0x61))))) ∨
    (classify c = .unsupported ∧ encChar c = none) := by
  unfold encChar tokenOf
  cases classify c <;> simp

/-- The token of a supported character is a legal character token (spec/30_encoding.md R73, R77). -/
theorem exists_token_of_encChar {c : Word} {p : Bits} (h : encChar c = some p) :
    ∃ i, p = tokenBits i ∧ i ≠ .term ∧ i.wf = true := by
  obtain ⟨hc, hp⟩ | ⟨hc, hp⟩ | ⟨hc, hp⟩ | ⟨-, hp⟩ := encChar_cases c <;> rw [hp] at h <;> cases h
  · have range := classify_eq_digit_iff.1 hc
    exact ⟨_, rfl, nofun, decide_eq_true (by rw [BitVec.toNat_ofNat]; omega)⟩
  · have range := classify_eq_upper_iff.1 hc
    exact ⟨_, rfl, nofun, decide_eq_true (by rw [BitVec.toNat_ofNat]; omega)⟩
  · have range := classify_eq_lower_iff.1 hc
    exact ⟨_, rfl, nofun, decide_eq_true (by rw [BitVec.toNat_ofNat]; omega)⟩

/-- Settles O6: a character's token is legal, so it is not LOWER 31 and O3 gives it back. -/
theorem noCharacterIsReadAsTerminator : Obligations.NoCharacterIsReadAsTerminator := by
  intro c p rest h
  have hne : p ≠ [] := by
    rintro rfl
    simpa using length_of_encChar h
  obtain ⟨i, rfl, hterm, hwf⟩ := exists_token_of_encChar h
  refine ⟨i, hterm, ?_⟩
  rw [← followedBy_encode hne]
  refine decodeOfEncodedTokenIsTheToken i rest hne ?_
  rintro rfl
  exact absurd hwf (by decide)

/-! ## The bitstream of a message -/

/-- The patterns of the characters at the indices of a list, in its order (spec/30_encoding.md R78). -/
def patterns (msg : Nat → Word) (ks : List Nat) : Bits := ks.flatMap fun k => (encChar (msg k)).getD []

@[simp] theorem patterns_cons (msg : Nat → Word) (k : Nat) (ks : List Nat) :
    patterns msg (k :: ks) = (encChar (msg k)).getD [] ++ patterns msg ks := rfl

theorem encChar_eq_none_iff {c : Word} : encChar c = none ↔ classify c = .unsupported := by
  obtain ⟨hc, hp⟩ | ⟨hc, hp⟩ | ⟨hc, hp⟩ | ⟨hc, hp⟩ := encChar_cases c <;> simp [hc, hp]

/-- SERIALIZE answers a bitstream exactly when every character left is supported, and then the patterns so far, theirs
and the terminator (spec/40_character_encoder.md R106 to R108). -/
theorem serializeFrom_eq_ok_iff {msg : Nat → Word} {n k : Nat} {acc bits : Bits} :
    serializeFrom msg n k acc = .ok bits ↔
      (∀ j ∈ List.range' k n, classify (msg j) ≠ .unsupported) ∧
      bits = acc ++ patterns msg (List.range' k n) ++ terminator := by
  induction n generalizing k acc with
  | zero => simp [serializeFrom, patterns, eq_comm]
  | succ n ih =>
    rw [serializeFrom, List.range'_succ, List.forall_mem_cons, patterns_cons, ne_eq, ← encChar_eq_none_iff]
    cases encChar (msg k) with
    | none => simp
    | some p => simp [ih]

theorem serialize_eq_ok_iff {msg : Nat → Word} {m : Nat} {bits : Bits} :
    serialize msg m = .ok bits ↔
      (∀ k < m, classify (msg k) ≠ .unsupported) ∧ bits = patterns msg (List.range m) ++ terminator := by
  rw [serialize, serializeFrom_eq_ok_iff, ← List.range_eq_range', List.nil_append]
  simp only [List.mem_range]

/-- Settles O8: SERIALIZE of supported characters answers their patterns and the terminator. -/
theorem serializeConcatenatesThePatterns : Obligations.SerializeConcatenatesThePatterns :=
  fun _ _ supported => serialize_eq_ok_iff.2 ⟨supported, rfl⟩

/-! ## Its length -/

/-- 5 bits for a digit and 7 for a letter (spec/30_encoding.md R79). -/
theorem length_patterns (msg : Nat → Word) (ks : List Nat) :
    (patterns msg ks).length
      = 5 * ks.countP (fun k => classify (msg k) = .digit)
        + 7 * (ks.countP (fun k => classify (msg k) = .upper) + ks.countP (fun k => classify (msg k) = .lower)) := by
  induction ks with
  | nil => rfl
  | cons k ks ih =>
    rw [patterns_cons, List.length_append, ih]
    obtain ⟨hc, hp⟩ | ⟨hc, hp⟩ | ⟨hc, hp⟩ | ⟨hc, hp⟩ := encChar_cases (msg k) <;>
      simp [hc, hp, tokenBits] <;> omega

/-- Settles O10: what SERIALIZE answers is patterns and a terminator of 8 bits. -/
theorem bitstreamLengthIsTheClassCount : Obligations.BitstreamLengthIsTheClassCount := by
  intro msg m bits h
  obtain ⟨-, rfl⟩ := serialize_eq_ok_iff.1 h
  rw [List.length_append, length_patterns]
  rfl

/-- The supported characters that are not digits are the letters (spec/30_encoding.md R70). -/
theorem countP_not_digit {msg : Nat → Word} {ks : List Nat} (supported : ∀ k ∈ ks, classify (msg k) ≠ .unsupported) :
    ks.countP (fun k => classify (msg k) ≠ .digit)
      = ks.countP (fun k => classify (msg k) = .upper) + ks.countP (fun k => classify (msg k) = .lower) := by
  induction ks with
  | nil => rfl
  | cons k ks ih =>
    obtain ⟨hk, hks⟩ := List.forall_mem_cons.1 supported
    simp only [List.countP_cons, ih hks]
    cases hc : classify (msg k) with
    | unsupported => exact absurd hc hk
    | digit | upper | lower => simp <;> omega

/-- EMBED of a message with a bitstream ends in DONE exactly when the bitstream fits (spec/44_transport_commands.md
R203). -/
theorem embedBigStep_state_eq_done_iff {s : State} {bits : Bits}
    (h : serialize s.msgEntry s.msgLen.toNat = .ok bits) :
    (embedBigStep s).state = .done ↔ bits.length ≤ s.bufLen.toNat := by
  by_cases fits : bits.length ≤ s.bufLen.toNat
  · simp [embedBigStep_of_fits h fits, fits]
  · simp [embedBigStep_of_overflow h (Nat.lt_of_not_le fits), fits]

/-- Settles O37: the length of a supported message's bitstream, with the letters counted as what is no digit. -/
theorem embedSucceedsExactlyWhenItFits : Obligations.EmbedSucceedsExactlyWhenItFits := by
  intro s supported
  have hser := serializeConcatenatesThePatterns s.msgEntry s.msgLen.toNat supported
  rw [embedBigStep_state_eq_done_iff hser, bitstreamLengthIsTheClassCount _ _ _ hser,
    countP_not_digit fun k hk => supported k (List.mem_range.1 hk)]

/-! ## POLL -/

/-- A step of the core has a next state in every phase. -/
theorem exists_coreMove (s : State) : ∃ t, carry (coreMove s) = .next t := by
  unfold coreMove
  cases hp : s.phase with
  | idle | embSer | embChk | embWr => exact ⟨_, rfl⟩
  | extScan => exact exists_scanMove hp

/-- A step of the core gives the host nothing to read. -/
theorem received_of_coreMove {s t : State} (h : carry (coreMove s) = .next t) : t.received = s.received := by
  obtain ⟨-, rfl⟩ | ⟨-, rfl⟩ | ⟨-, rfl⟩ | ⟨-, rfl⟩ | ⟨-, ⟨c, w, rfl⟩ | ⟨e, rfl⟩ | rfl⟩ := coreMove_cases h
  · rfl
  · obtain ⟨-, p, -, ht⟩ | ⟨-, -, ht⟩ | ⟨-, ht⟩ := embSerStep_cases s <;> simp [ht]
  · obtain ⟨-, ht⟩ | ⟨-, ht⟩ := embChkStep_cases s <;> simp [ht]
  · obtain ⟨-, b, -, ht⟩ | ⟨-, ht⟩ := embWrStep_cases s <;> simp [ht]
  all_goals rfl

theorem step_of_poll {s : State} {rest : List HostOp} (h : s.hostProgram = .poll :: rest) :
    step s = carry (pollMove s rest) := by
  rw [step_eq_carry, nextMove, h]

/-- Settles O50, by STATE: DONE and ERROR end the POLL, and otherwise the core moves. -/
theorem pollEndsWhenTheCommandHasEnded : Obligations.PollEndsWhenTheCommandHasEnded := by
  intro s rest h
  refine ⟨fun hs => ?_, fun hs => ?_, fun hs => ?_⟩
  · simp only [step_of_poll h, pollMove, hs, State.statusWord, carry]
    rfl
  · simp only [step_of_poll h, pollMove, hs, State.statusWord, carry]
    rfl
  · have running : s.state ≠ .done ∧ s.state ≠ .error := by obtain hs | hs := hs <;> simp [hs]
    have turn : s.CoreTurn s := .inr (.inr ⟨rest, h, running.1, running.2, rfl⟩)
    obtain ⟨t, ht⟩ := exists_coreMove s
    exact ⟨t, by rw [step_of_coreTurn turn, ht], hostProgram_of_coreMove ht, received_of_coreMove ht⟩

end Sys2Proof.Machine
end

section
/-!
The character encoder: the patterns by class, what SERIALIZE answers for an unsupported character, and the scan of a
message's bitstream.
-/

namespace Sys2Proof

/-- A number below `2^n` is its own payload of `n` bits (spec/30_encoding.md R72, R73). -/
theorem bin_toNat_ofNat {n v : Nat} (h : v < 2 ^ n) : bin n (BitVec.ofNat n v).toNat = bin n v := by
  rw [BitVec.toNat_ofNat, Nat.mod_eq_of_lt h]

end Sys2Proof

namespace Sys2Proof.Machine

/-! ## ENC_CHAR -/

theorem encChar_of_digit {c : Word} (hc : classify c = .digit) :
    encChar c = some (false :: bin 4 (c.toNat - 0x30)) := by
  have range := classify_eq_digit_iff.1 hc
  rw [encChar, tokenOf, hc, Option.map_some, tokenBits, bin_toNat_ofNat (by omega)]

theorem encChar_of_upper {c : Word} (hc : classify c = .upper) :
    encChar c = some (true :: false :: bin 5 (c.toNat - 0x41)) := by
  have range := classify_eq_upper_iff.1 hc
  rw [encChar, tokenOf, hc, Option.map_some, tokenBits, bin_toNat_ofNat (by omega)]

theorem encChar_of_lower {c : Word} (hc : classify c = .lower) :
    encChar c = some (true :: true :: bin 5 (c.toNat - 0x61)) := by
  have range := classify_eq_lower_iff.1 hc
  rw [encChar, tokenOf, hc, Option.map_some, tokenBits, bin_toNat_ofNat (by omega)]

/-- Settles O7, by class: a range of code points is a class, and outside the three ranges none is left. -/
theorem encCharGivesTheClassPattern : Obligations.EncCharGivesTheClassPattern := by
  intro c
  refine ⟨fun lo hi => encChar_of_digit (classify_eq_digit_iff.2 ⟨lo, hi⟩),
    fun lo hi => encChar_of_upper (classify_eq_upper_iff.2 ⟨lo, hi⟩),
    fun lo hi => encChar_of_lower (classify_eq_lower_iff.2 ⟨lo, hi⟩), fun notDigit notUpper notLower => ?_⟩
  rw [encChar_eq_none_iff, classify, if_neg notDigit, if_neg notUpper, if_neg notLower]

/-! ## What SERIALIZE answers for an unsupported character, and what it reads -/

/-- SERIALIZE reports the first unsupported character of those that are left (spec/40_character_encoder.md R107). -/
theorem serializeFrom_eq_unsupported_iff {msg : Nat → Word} {n k i : Nat} {acc : Bits} :
    serializeFrom msg n k acc = .unsupported i ↔
      (k ≤ i ∧ i < k + n) ∧ classify (msg i) = .unsupported ∧
        ∀ j, k ≤ j → j < i → classify (msg j) ≠ .unsupported := by
  induction n generalizing k acc with
  | zero =>
    simp only [serializeFrom, reduceCtorEq, false_iff]
    omega
  | succ n ih =>
    rw [serializeFrom]
    cases hp : encChar (msg k) with
    | none =>
      have hk := encChar_eq_none_iff.1 hp
      refine ⟨?_, ?_⟩
      · rintro ⟨⟩
        exact ⟨⟨le_rfl, by omega⟩, hk, fun j hkj hjk => absurd hjk (by omega)⟩
      · rintro ⟨⟨hki, -⟩, -, first⟩
        have hik : i ≤ k := Nat.le_of_not_lt fun hlt => first k le_rfl hlt hk
        rw [Nat.le_antisymm hki hik]
    | some p =>
      have hk : classify (msg k) ≠ .unsupported := by simp [← encChar_eq_none_iff, hp]
      refine ih.trans ⟨?_, ?_⟩
      · rintro ⟨⟨hki, hi⟩, hc, first⟩
        refine ⟨⟨by omega, by omega⟩, hc, fun j hkj hji => ?_⟩
        obtain rfl | hlt := Nat.eq_or_lt_of_le hkj
        · exact hk
        · exact first j hlt hji
      · rintro ⟨⟨hki, hi⟩, hc, first⟩
        have hne : k ≠ i := fun h => hk (h ▸ hc)
        exact ⟨⟨by omega, by omega⟩, hc, fun j hkj hji => first j (by omega) hji⟩

/-- Settles O9: from character 0 on, the characters that are left are all of them. -/
theorem serializeReportsTheFirstUnsupported : Obligations.SerializeReportsTheFirstUnsupported := by
  intro msg m k
  rw [serialize, serializeFrom_eq_unsupported_iff]
  simp only [Nat.zero_le, true_and, Nat.zero_add, forall_const]

/-- Settles O11: SERIALIZE reads the characters below the length alone. -/
theorem serializeDependsOnlyOnTheMessage : Obligations.SerializeDependsOnlyOnTheMessage :=
  fun _ _ _ agree => serialize_congr agree

/-! ## Reading a pattern at a boundary -/

theorem slice_add (b : Nat → Bool) (p m n : Nat) : slice b p (m + n) = slice b p m ++ slice b (p + m) n := by
  simp [slice, List.range_add, Nat.add_assoc]

/-- Two bit sequences stand at a position, one behind the other. -/
theorem slice_eq_append_iff {b : Nat → Bool} {p : Nat} {s t : Bits} :
    slice b p (s ++ t).length = s ++ t ↔ slice b p s.length = s ∧ slice b (p + s.length) t.length = t := by
  rw [List.length_append, slice_add]
  exact ⟨fun h => List.append_inj h (length_slice _ _ _), fun ⟨hs, ht⟩ => by rw [hs, ht]⟩

/-- DEC_CHAR of a digit's pattern (spec/43_character_decoder.md R172). -/
theorem decChar_of_slice_digit {b : Nat → Bool} {p l v : Nat} (room : 5 ≤ l - p) (hv : v ≤ 9)
    (h : slice b p 5 = false :: bin 4 v) : decChar b p l = .char (BitVec.ofNat 8 (0x30 + v)) 5 := by
  rw [slice_succ, List.cons.injEq] at h
  obtain ⟨marker, payload⟩ := h
  have value : valueOf (bin 4 v) = v := (valueOf_bin 4 v).trans (Nat.mod_eq_of_lt (by omega))
  simp only [decChar, marker, payload, value, digitChar, if_neg (Nat.not_lt.2 room), if_pos hv]

/-- DEC_CHAR of a letter's pattern: the second bit of the marker chooses the first letter (R173, R174). -/
theorem decChar_of_slice_letter {b : Nat → Bool} {p l v : Nat} {small : Bool} (room : 7 ≤ l - p) (hv : v ≤ 25)
    (h : slice b p 7 = true :: small :: bin 5 v) :
    decChar b p l = .char (BitVec.ofNat 8 ((if small then 0x61 else 0x41) + v)) 7 := by
  rw [slice_succ, slice_succ, List.cons.injEq, List.cons.injEq] at h
  obtain ⟨marker, second, payload⟩ := h
  have value : valueOf (bin 5 v) = v := (valueOf_bin 5 v).trans (Nat.mod_eq_of_lt (by omega))
  simp only [decChar, marker, second, payload, value, letterChar, if_neg (Nat.not_lt.2 room), if_pos hv]

/-- A class's first code point and the distance from it give the character's byte (spec/30_encoding.md R73). -/
theorem ofNat_add_toNat_sub {c : Word} {first : Nat} (h : first ≤ c.toNat) :
    BitVec.ofNat 8 (first + (c.toNat - first)) = c.setWidth 8 := by
  rw [Nat.add_sub_cancel' h, BitVec.ofNat_toNat]

/-- DEC_CHAR of a character's pattern is the character (spec/43_character_decoder.md R186). -/
theorem decChar_of_encChar {c : Word} {s : Bits} {b : Nat → Bool} {p l : Nat} (hs : encChar c = some s)
    (room : s.length ≤ l - p) (h : slice b p s.length = s) : decChar b p l = .char (c.setWidth 8) s.length := by
  cases hc : classify c with
  | digit =>
    have range := classify_eq_digit_iff.1 hc
    cases (encChar_of_digit hc).symm.trans hs
    rw [← ofNat_add_toNat_sub range.1]
    exact decChar_of_slice_digit room (by omega) h
  | upper =>
    have range := classify_eq_upper_iff.1 hc
    cases (encChar_of_upper hc).symm.trans hs
    rw [← ofNat_add_toNat_sub range.1]
    exact decChar_of_slice_letter (small := false) room (by omega) h
  | lower =>
    have range := classify_eq_lower_iff.1 hc
    cases (encChar_of_lower hc).symm.trans hs
    rw [← ofNat_add_toNat_sub range.1]
    exact decChar_of_slice_letter (small := true) room (by omega) h
  | unsupported => cases (encChar_eq_none_iff.2 hc).symm.trans hs

/-- No terminator stands where a character's pattern stands (spec/30_encoding.md R80). -/
theorem slice_ne_terminator_of_encChar {c : Word} {s : Bits} {b : Nat → Bool} {p : Nat} (hs : encChar c = some s)
    (h : slice b p s.length = s) : slice b p 8 ≠ terminator := by
  intro hterm
  have hlen := length_of_encChar hs
  have split : slice b p 8 = s ++ slice b (p + s.length) (8 - s.length) := by
    rw [← Nat.add_sub_cancel' (show s.length ≤ 8 by omega), slice_add, Nat.add_sub_cancel_left, h]
  obtain ⟨i, hi, hdecode⟩ := noCharacterIsReadAsTerminator c s (slice b (p + s.length) (8 - s.length)) hs
  rw [← split, hterm] at hdecode
  exact hi (Decoded.instr.inj ((decodeToken_term []).symm.trans hdecode)).1.symm

/-! ## The scan of a bitstream -/

/-- The scan takes a character's pattern as one decode step (spec/43_character_decoder.md R181). -/
theorem scanFrom_of_encChar {c : Word} {s : Bits} {b : Nat → Bool} {p l : Nat} (hs : encChar c = some s)
    (room : s.length ≤ l - p) (h : slice b p s.length = s) (fuel : Nat) (chars : List Byte) :
    scanFrom b l (fuel + 1) p chars = scanFrom b l fuel (p + s.length) (chars ++ [c.setWidth 8]) := by
  have hlen := length_of_encChar hs
  rw [scanFrom, if_neg fun hterm => slice_ne_terminator_of_encChar hs h hterm.2, if_neg (by omega),
    decChar_of_encChar hs room h]

/-- The scan ends at a terminator (R180, R184). -/
theorem scanFrom_of_terminator {b : Nat → Bool} {p l : Nat} (room : 8 ≤ l - p) (h : slice b p 8 = terminator)
    (fuel : Nat) (chars : List Byte) : scanFrom b l (fuel + 1) p chars = .done chars p := by
  rw [scanFrom, if_pos ⟨room, h⟩]

/-- The scan of the patterns of characters and a terminator adds the characters to those so far; fuel for each bit of
the patterns is more than their decode steps need (R185). -/
theorem scanFrom_of_patterns {msg : Nat → Word} {b : Nat → Bool} {l : Nat} {ks : List Nat} {fuel p : Nat}
    {chars : List Byte} (supported : ∀ k ∈ ks, classify (msg k) ≠ .unsupported)
    (enough : (patterns msg ks).length < fuel) (room : (patterns msg ks ++ terminator).length ≤ l - p)
    (h : slice b p (patterns msg ks ++ terminator).length = patterns msg ks ++ terminator) :
    scanFrom b l fuel p chars
      = .done (chars ++ ks.map fun k => (msg k).setWidth 8) (p + (patterns msg ks).length) := by
  induction ks generalizing fuel p chars with
  | nil =>
    obtain ⟨fuel, rfl⟩ := Nat.exists_eq_add_of_lt enough
    simpa [patterns] using scanFrom_of_terminator room h _ chars
  | cons k ks ih =>
    obtain ⟨hk, hks⟩ := List.forall_mem_cons.1 supported
    obtain ⟨s, hs⟩ := Option.ne_none_iff_exists'.1 (mt encChar_eq_none_iff.1 hk)
    have hlen := length_of_encChar hs
    have hcons : patterns msg (k :: ks) = s ++ patterns msg ks := by rw [patterns_cons, hs, Option.getD_some]
    rw [hcons, List.append_assoc] at room h
    rw [hcons] at enough ⊢
    obtain ⟨here, after⟩ := slice_eq_append_iff.1 h
    rw [List.length_append] at room enough ⊢
    obtain ⟨fuel, rfl⟩ := Nat.exists_eq_add_of_lt (Nat.zero_lt_of_lt enough)
    rw [Nat.zero_add, scanFrom_of_encChar hs (by omega) here, ih hks (by omega) (by omega) after]
    simp [Nat.add_assoc]

/-- Settles O12: the scan reads each pattern as its character and stops at the terminator, and the stream's length is
fuel enough. -/
theorem scanOfASerializedMessageIsTheMessage : Obligations.ScanOfASerializedMessageIsTheMessage := by
  intro msg m bits b l hser fits starts
  obtain ⟨supported, rfl⟩ := serialize_eq_ok_iff.1 hser
  have hlen : (patterns msg (List.range m) ++ terminator).length = (patterns msg (List.range m)).length + 8 :=
    List.length_append
  rw [scan, scanFrom_of_patterns (fun k hk => supported k (List.mem_range.1 hk)) (by omega) fits starts, hlen]
  simp

end Sys2Proof.Machine
end

section
/-!
The LSB packer: what PACK_WRITE leaves in each byte, and the write phase of EMBED byte by byte, up to a reset that cuts
it off.
-/

namespace Sys2Proof.Machine

/-! ## PACK_WRITE -/

/-- Settles O13: a payload byte is its old byte merged with its bit, and no other byte or field is written. -/
theorem packWriteReplacesOnlyTheLowBits : Obligations.PackWriteReplacesOnlyTheLowBits := by
  intro bits s
  refine ⟨fun i b hb => ?_, fun i hi => ?_, packWrite_eq bits s⟩
  · have hbyte : (packWrite bits s).sampleByte i = mergeLsb (s.sampleByte i) b := by
      rw [sampleByte_packWrite, hb, Option.elim_some]
    rw [hbyte]
    exact ⟨lsbOf_mergeLsb _ b, mergeLsb_and_fe _ b⟩
  · rw [sampleByte_packWrite, List.getElem?_eq_none hi, Option.elim_none]

/-- With the first `n` bits packed, the bytes below `n` hold their new bit and the others are as they were. -/
theorem sampleByte_packWrite_take {s : State} {bits : Bits} {n : Nat} (hn : n ≤ bits.length) (i : Nat) :
    (packWrite (bits.take n) s).sampleByte i
      = if i < n then mergeLsb (s.sampleByte i) (bits.getD i false) else s.sampleByte i := by
  rw [sampleByte_packWrite, List.getElem?_take]
  split
  · have hi : i < bits.length := by omega
    rw [List.getElem?_eq_getElem hi, Option.elim_some, List.getD_eq_getElem _ _ hi]
  · rfl

/-! ## The write phase, byte by byte (spec/44_transport_commands.md R202) -/

/-- The write phase entered in `s` once its first `n` bits are packed, with `rest` left of the host's program. -/
def State.written (s : State) (n : Nat) (rest : List HostOp) : State :=
  { packWrite (s.bits.take n) s with widx := n, hostProgram := rest }

theorem State.written_zero {s : State} (hw : s.widx = 0) : s.written 0 s.hostProgram = s :=
  calc s.written 0 s.hostProgram = { s with widx := 0 } := rfl
    _ = s := by rw [← hw]

@[simp] theorem State.written_phase (s : State) (n : Nat) (rest : List HostOp) :
    (s.written n rest).phase = s.phase := by
  rw [State.written, packWrite_eq]

@[simp] theorem State.written_bits (s : State) (n : Nat) (rest : List HostOp) :
    (s.written n rest).bits = s.bits := by
  rw [State.written, packWrite_eq]

/-- The write step that packs bit `n` comes after those of the bits below it (spec/41_lsb_packer.md R135). -/
theorem embWrStep_written {s : State} {n : Nat} (hn : n < s.bits.length) (rest : List HostOp) :
    embWrStep (s.written n rest) = s.written (n + 1) rest := by
  have htake : s.bits.take (n + 1) = s.bits.take n ++ [s.bits[n]] := (List.take_concat_get' _ _ hn).symm
  have hbit : (s.written n rest).bits[(s.written n rest).widx]? = some s.bits[n] := by
    rw [State.written_bits]
    exact List.getElem?_eq_getElem hn
  rw [embWrStep, hbit, State.written, State.written, htake, packWrite_concat, List.length_take_of_le hn.le]
  rfl

/-- A wait of the host lets the write phase pack the next bit. -/
theorem step_of_wait_written {s : State} {n : Nat} (hwr : s.phase = .embWr) (hn : n < s.bits.length)
    (rest : List HostOp) : step (s.written n (.wait :: rest)) = .next (s.written (n + 1) rest) := by
  have turn : (s.written n (.wait :: rest)).CoreTurn (s.written n rest) := .inr (.inl ⟨rest, rfl, rfl⟩)
  rw [step_of_coreTurn turn, coreMove, State.written_phase, hwr, ← embWrStep_written hn rest]
  rfl

/-- From the start of the write phase, `n` sequencer steps pack the first `n` bits. -/
theorem run_of_waits_in_writePhase {s : State} {n : Nat} {rest : List HostOp} (hwr : s.phase = .embWr)
    (hw : s.widx = 0) (hn : n ≤ s.bits.length) (h : s.hostProgram = List.replicate n .wait ++ rest) :
    Host.Core.run core n s = .next (s.written n rest) := by
  induction n generalizing rest with
  | zero =>
    rw [List.replicate_zero, List.nil_append] at h
    rw [← h, State.written_zero hw]
    rfl
  | succ n ih =>
    rw [List.replicate_succ', List.append_assoc, List.singleton_append] at h
    rw [run_add (ih (by omega) h) 1, run_succ_of_next (step_of_wait_written hwr hn rest)]
    rfl

/-! ## A reset that cuts the write phase off -/

/-- A reset takes effect at once (spec/70_reset_and_hazards.md R260). -/
theorem step_of_reset {s : State} {rest : List HostOp} (h : s.hostProgram = .reset :: rest) :
    step s = .next { s with hostProgram := rest }.applyReset := by
  rw [step_eq_carry, nextMove, h, carry]

/-- Settles O55: the sequencer steps before the reset have packed the first `n` bits, in ascending order, and the reset
keeps SAMPLE. -/
theorem resetInTheWritePhaseKeepsTheWrittenBytes : Obligations.ResetInTheWritePhaseKeepsTheWrittenBytes := by
  intro s n rest hwr hw hn h
  have hreset := step_of_reset (s := s.written n (.reset :: rest)) rfl
  have hrun := run_add (run_of_waits_in_writePhase hwr hw hn h) 1
  rw [run_succ_of_next hreset] at hrun
  refine ⟨_, hrun, rfl, rfl, fun i => ?_⟩
  rw [← sampleByte_packWrite_take hn]
  exact State.sampleByte_congr rfl i

end Sys2Proof.Machine
end

section
/-!
The LSB extractor: the LSB stream that is read back from a buffer PACK_WRITE has written.
-/

namespace Sys2Proof.Machine

theorem drop_slice (b : Nat → Bool) (p n k : Nat) : (slice b p n).drop k = slice b (p + k) (n - k) := by
  refine List.ext_getElem? fun j => ?_
  simp only [List.getElem?_drop, getElem?_slice, Nat.lt_sub_iff_add_lt', Nat.add_assoc]

/-- The bit that LSB_BIT extracts after PACK_WRITE: the bit of the bitstream, and beyond its end the old one (R151). -/
theorem lsbBit_packWrite (bits : Bits) (s : State) (i : Nat) :
    (packWrite bits s).lsbBit i = bits[i]?.getD (s.lsbBit i) := by
  rw [State.lsbBit, sampleByte_packWrite]
  cases bits[i]? with
  | none => rfl
  | some b => exact lsbOf_mergeLsb _ b

/-- The first bits of the stream are the bitstream that was packed. -/
theorem slice_lsbBit_packWrite (bits : Bits) (s : State) :
    slice (packWrite bits s).lsbBit 0 bits.length = bits := by
  refine List.ext_getElem (length_slice ..) fun i _ hi => ?_
  simp [slice, lsbBit_packWrite, hi]

/-- Settles O14: the stream splits where the bitstream ends, below it are the packed bits and from there on the old
ones. -/
theorem lsbStreamOfAPackedBuffer : Obligations.LsbStreamOfAPackedBuffer := by
  intro bits s fits
  have hbuf : (packWrite bits s).bufLen.toNat = bits.length + (s.bufLen.toNat - bits.length) := by
    rw [packWrite_eq, Nat.add_sub_cancel' fits]
  have hold : slice (packWrite bits s).lsbBit bits.length (s.bufLen.toNat - bits.length)
      = s.lsbStream.drop bits.length := by
    rw [State.lsbStream, drop_slice, Nat.zero_add]
    refine slice_congr fun i hi _ => ?_
    rw [lsbBit_packWrite, List.getElem?_eq_none hi, Option.getD_none]
  rw [State.lsbStream, hbuf, slice_add, slice_lsbBit_packWrite, Nat.zero_add, hold]

end Sys2Proof.Machine
end

section
/-!
The character decoder: DEC_CHAR arm by arm, the meaning of the stream tokens in a scan, the scan step as DEC_CHAR has
it, and where a scan ends and what it reads.
-/

namespace Sys2Proof.Machine

/-! ## The characters of the payloads (spec/30_encoding.md R77) -/

theorem digitChar_of_le {d : Nat} (h : d ≤ 9) : digitChar d = some (BitVec.ofNat 8 (0x30 + d)) := if_pos h

theorem digitChar_of_gt {d : Nat} (h : 9 < d) : digitChar d = none := if_neg (Nat.not_le.2 h)

theorem letterChar_of_le {o : Nat} (first : Nat) (h : o ≤ 25) :
    letterChar first o = some (BitVec.ofNat 8 (first + o)) := if_pos h

theorem letterChar_of_gt {o : Nat} (first : Nat) (h : 25 < o) : letterChar first o = none := if_neg (Nat.not_le.2 h)

/-! ## DEC_CHAR -/

/-- How many bits the token at a boundary has, by its marker (spec/43_character_decoder.md R172 to R174). -/
def widthAt (b : Nat → Bool) (p : Nat) : Nat := if b p then 7 else 5

theorem widthAt_of_false {b : Nat → Bool} {p : Nat} (marker : b p = false) : widthAt b p = 5 := by
  simp [widthAt, marker]

theorem widthAt_of_true {b : Nat → Bool} {p : Nat} (marker : b p = true) : widthAt b p = 7 := by
  simp [widthAt, marker]

theorem widthAt_bounds (b : Nat → Bool) (p : Nat) : 5 ≤ widthAt b p ∧ widthAt b p ≤ 7 := by
  unfold widthAt
  split <;> decide

/-- A cut-off token is truncated, whatever its marker (R175). -/
theorem decChar_of_cutOff {b : Nat → Bool} {p l : Nat} (h : l - p < widthAt b p) : decChar b p l = .truncated := by
  unfold decChar
  split
  next marker => exact if_pos (widthAt_of_false marker ▸ h)
  next marker => exact if_pos (widthAt_of_true marker ▸ h)

/-- A whole digit token is the character of its value, if that has one (R172, R176). -/
theorem decChar_of_digit {b : Nat → Bool} {p l : Nat} (marker : b p = false) (room : 5 ≤ l - p) :
    decChar b p l = (digitChar (valueOf (slice b (p + 1) 4))).elim .invalidDigit (.char · 5) := by
  simp only [decChar, marker, if_neg (Nat.not_lt.2 room)]
  cases digitChar (valueOf (slice b (p + 1) 4)) <;> rfl

/-- A whole letter token is the character of its offset, if that has one (R173, R174, R177). -/
theorem decChar_of_letter {b : Nat → Bool} {p l : Nat} (marker : b p = true) (room : 7 ≤ l - p) :
    decChar b p l
      = (letterChar (if b (p + 1) then 0x61 else 0x41) (valueOf (slice b (p + 2) 5))).elim .corrupt (.char · 7) := by
  simp only [decChar, marker, if_neg (Nat.not_lt.2 room)]
  cases letterChar (if b (p + 1) then 0x61 else 0x41) (valueOf (slice b (p + 2) 5)) <;> rfl

/-- A decoded character's width is that of its token. -/
theorem width_of_decChar {b : Nat → Bool} {p l : Nat} {c : Byte} {w : Nat} (h : decChar b p l = .char c w) :
    w = widthAt b p := by
  unfold decChar at h
  split at h <;> rename_i marker <;> split at h
  · cases h
  · split at h <;> cases h
    exact (widthAt_of_false marker).symm
  · cases h
  · split at h <;> cases h
    exact (widthAt_of_true marker).symm

/-- A decoded character takes at least 5 of the bits that are left (R172 to R175). -/
theorem width_bounds_of_decChar {b : Nat → Bool} {p l : Nat} {c : Byte} {w : Nat} (h : decChar b p l = .char c w) :
    5 ≤ w ∧ w ≤ l - p := by
  refine ⟨?_, width_le_of_decChar h⟩
  rw [width_of_decChar h]
  exact (widthAt_bounds b p).1

/-- Settles O15, by the marker and whether the token is whole. -/
theorem decCharFollowsItsArms : Obligations.DecCharFollowsItsArms := by
  intro b p l _
  refine ⟨fun marker room value => ?_, fun marker second room value => ?_, fun marker second room value => ?_,
    fun marker cut => ?_, fun marker cut => ?_, fun marker room value => ?_, fun marker room value => ?_⟩
  · rw [decChar_of_digit marker room, digitChar_of_le value, Option.elim_some]
  · rw [decChar_of_letter marker room, letterChar_of_le _ value, Option.elim_some, second]
    rfl
  · rw [decChar_of_letter marker room, letterChar_of_le _ value, Option.elim_some, second]
    rfl
  · exact decChar_of_cutOff (by rw [widthAt_of_false marker]; omega)
  · exact decChar_of_cutOff (by rw [widthAt_of_true marker]; omega)
  · rw [decChar_of_digit marker room, digitChar_of_gt value, Option.elim_none]
  · rw [decChar_of_letter marker room, letterChar_of_gt _ value, Option.elim_none]

/-- Settles O16: the marker is the token's first bit, so it is the same in both streams, and so is the payload if it is
all there. -/
theorem decCharReadsOnlyItsToken : Obligations.DecCharReadsOnlyItsToken := by
  intro b b' p l hp agree
  have same (i : Nat) (lo : p ≤ i) (hl : i < l) (hw : i < p + widthAt b p) : b i = b' i := agree i lo hl hw
  have width := widthAt_bounds b p
  have first : b p = b' p := same p le_rfl hp (by omega)
  have sameWidth : widthAt b p = widthAt b' p := by rw [widthAt, widthAt, first]
  by_cases cut : l - p < widthAt b p
  · rw [decChar_of_cutOff cut, decChar_of_cutOff (sameWidth ▸ cut)]
  · cases marker : b p with
    | false =>
      have hw := widthAt_of_false marker
      rw [decChar_of_digit marker (by omega), decChar_of_digit (first ▸ marker) (by omega),
        slice_congr fun i _ _ => same i (by omega) (by omega) (by omega)]
    | true =>
      have hw := widthAt_of_true marker
      rw [decChar_of_letter marker (by omega), decChar_of_letter (first ▸ marker) (by omega),
        slice_congr fun i _ _ => same i (by omega) (by omega) (by omega), same (p + 1) (by omega) (by omega) (by omega)]

/-- Settles O17: it is the lemma by which the scan of a message is read back. -/
theorem decCharOfAnEncodedCharacter : Obligations.DecCharOfAnEncodedCharacter :=
  fun _ _ _ _ _ hs room h => decChar_of_encChar hs room h

/-! ## The stream tokens in a scan -/

section Tokens

variable {s : State} (scanning : s.phase = .extScan)
include scanning

/-- A character token that is cut off ends the scan (R175, R182). -/
theorem decodeStep_of_cutOff {w : Nat} (cut : s.remaining < w) (ch : Option Byte) (bad : ErrCode) :
    decodeStep w ch bad s = .next (s.scanError .terminatorNotFound) := by
  unfold decodeStep
  rw [if_neg (not_not.2 scanning), if_pos cut]

/-- A whole token with a character is decoded (R181), and one without a character ends the scan (R183). -/
theorem decodeStep_of_whole {w : Nat} (room : w ≤ s.remaining) (ch : Option Byte) (bad : ErrCode) :
    decodeStep w ch bad s = .next (ch.elim (s.scanError bad) (s.emit · w)) := by
  unfold decodeStep
  rw [if_neg (not_not.2 scanning), if_neg (Nat.not_lt.2 room)]
  cases ch <;> rfl

theorem exec_term_of_room (room : 8 ≤ s.remaining) : exec .term s = .next s.scanDone := by
  rw [exec, execTerm, if_neg (not_not.2 scanning), if_pos room]

theorem exec_term_of_seven (h : s.remaining = 7) : exec .term s = .next (s.scanError .corruptStream) := by
  rw [exec, execTerm, if_neg (not_not.2 scanning), if_neg (by omega), if_pos h]

theorem exec_term_of_cutOff (cut : s.remaining < 7) : exec .term s = .next (s.scanError .terminatorNotFound) := by
  rw [exec, execTerm, if_neg (not_not.2 scanning), if_neg (by omega), if_neg (by omega)]

end Tokens

/-- Settles O21: a whole token whose payload has a character is decoded. -/
theorem characterTokensAreDecoded : Obligations.CharacterTokensAreDecoded := by
  intro s scanning
  refine ⟨fun d room legal => ?_, fun o room legal => ?_, fun o room legal => ?_⟩
  · rw [exec, execDigit, decodeStep_of_whole scanning room, digitChar_of_le legal]
    rfl
  · rw [exec, execUpper, decodeStep_of_whole scanning room, letterChar_of_le _ legal]
    rfl
  · rw [exec, execLower, decodeStep_of_whole scanning room, letterChar_of_le _ legal]
    rfl

/-- Settles O22: it is the arm of TERM that has all 8 bits. -/
theorem termTokenEndsTheScan : Obligations.TermTokenEndsTheScan :=
  fun _ scanning room => exec_term_of_room scanning room

/-- Settles O23, by whether the token is whole and its payload has a character. -/
theorem tokensWithoutACharacterRaise : Obligations.TokensWithoutACharacterRaise := by
  intro s scanning
  refine ⟨fun d cut => ?_, fun d room value => ?_, fun o cut => ⟨?_, ?_⟩, fun o room value => ⟨?_, ?_⟩,
    exec_term_of_cutOff scanning, exec_term_of_seven scanning⟩
  · exact decodeStep_of_cutOff scanning cut _ _
  · rw [exec, execDigit, decodeStep_of_whole scanning room, digitChar_of_gt value]
    rfl
  · exact decodeStep_of_cutOff scanning cut _ _
  · exact decodeStep_of_cutOff scanning cut _ _
  · rw [exec, execUpper, decodeStep_of_whole scanning room, letterChar_of_gt _ value]
    rfl
  · rw [exec, execLower, decodeStep_of_whole scanning room, letterChar_of_gt _ value]
    rfl

/-! ## The token that a stream holds at a boundary, in the terms of DEC_CHAR -/

/-- The payload that was read from `n` bits has their value. -/
theorem toNat_ofNat_valueOf {n : Nat} {bits : Bits} (h : bits.length = n) :
    (BitVec.ofNat n (valueOf bits)).toNat = valueOf bits := by
  subst h
  rw [BitVec.toNat_ofNat, Nat.mod_eq_of_lt (valueOf_lt bits)]

/-- The `n` bits from a boundary on begin with the terminator (R180). -/
abbrev TerminatorAt (b : Nat → Bool) (p n : Nat) : Prop := 8 ≤ n ∧ slice b p 8 = terminator

theorem decode_slice_of_terminator {b : Nat → Bool} {p n : Nat} (h : TerminatorAt b p n) :
    decode (.stream (slice b p n)) = .instr .term (slice b (p + 8) (n - 8)) := by
  obtain ⟨room, hterm⟩ := h
  have htake : (slice b p n).take 8 = terminator := by rw [take_slice, Nat.min_eq_left room, hterm]
  rw [tokenAtABoundaryFollowsTheLengthRule, length_slice, if_pos ⟨room, htake⟩, drop_slice]

/-- Where no terminator stands, its test fails. -/
theorem not_take_eight_slice {b : Nat → Bool} {p n : Nat} (h : ¬ TerminatorAt b p n) :
    ¬ (8 ≤ n ∧ (slice b p n).take 8 = List.replicate 8 true) := by
  rintro ⟨room, htake⟩
  rw [take_slice, Nat.min_eq_left room] at htake
  exact h ⟨room, htake⟩

theorem decode_slice_of_digit {b : Nat → Bool} {p n : Nat} (marker : b p = false) (room : 5 ≤ n)
    (hterm : ¬ TerminatorAt b p n) :
    decode (.stream (slice b p n))
      = .instr (.digit (BitVec.ofNat 4 (valueOf (slice b (p + 1) 4)))) (slice b (p + 5) (n - 5)) := by
  have first : (slice b p n)[0]? = some false := by rw [getElem?_slice, if_pos (by omega), Nat.add_zero, marker]
  rw [tokenAtABoundaryFollowsTheLengthRule, length_slice, if_neg (not_take_eight_slice hterm), if_neg (by omega),
    if_pos first, if_pos room, drop_slice, drop_slice, take_slice, Nat.min_eq_left (by omega)]

theorem decode_slice_of_letter {b : Nat → Bool} {p n : Nat} (marker : b p = true) (room : 7 ≤ n)
    (hterm : ¬ TerminatorAt b p n) :
    decode (.stream (slice b p n))
      = .instr ((if b (p + 1) then Instr.lower else .upper) (BitVec.ofNat 5 (valueOf (slice b (p + 2) 5))))
          (slice b (p + 7) (n - 7)) := by
  have first : (slice b p n)[0]? ≠ some false := by
    rw [getElem?_slice, if_pos (by omega), Nat.add_zero, marker]
    decide
  have second : (slice b p n)[1]? = some (b (p + 1)) := by rw [getElem?_slice, if_pos (by omega)]
  rw [tokenAtABoundaryFollowsTheLengthRule, length_slice, if_neg (not_take_eight_slice hterm), if_neg (by omega),
    if_neg first, if_neg (by omega), second, drop_slice, drop_slice, take_slice, Nat.min_eq_left (by omega)]
  cases b (p + 1) <;> rfl

/-- A cut-off or exhausted stream holds no instruction (spec/30_encoding.md R76; log 12). -/
theorem instr?_decode_slice_of_cutOff {b : Nat → Bool} {p n : Nat} (cut : n < widthAt b p) :
    (decode (.stream (slice b p n))).instr? = none := by
  have width := widthAt_bounds b p
  rw [tokenAtABoundaryFollowsTheLengthRule, length_slice, if_neg (by omega)]
  by_cases exhausted : n = 0
  · rw [if_pos exhausted]
    rfl
  · rw [if_neg exhausted, getElem?_slice, if_pos (Nat.pos_of_ne_zero exhausted), Nat.add_zero]
    cases marker : b p with
    | false =>
      rw [widthAt_of_false marker] at cut
      rw [if_pos rfl, if_neg (Nat.not_le.2 cut)]
      rfl
    | true =>
      rw [widthAt_of_true marker] at cut
      rw [if_neg (by decide), if_pos cut]
      rfl

/-! ## The scan step -/

/-- The state after the DEC_CHAR of a scan step, by its answer (R181 to R183). -/
def State.afterDecChar (s : State) : CharDecoded → State
  | .char c w => s.emit c w
  | .truncated => s.scanError .terminatorNotFound
  | .invalidDigit => s.scanError .invalidDigitValue
  | .corrupt => s.scanError .corruptStream

/-- The state after one scan step, in the order of the tests: the terminator, then what DEC_CHAR answers, which with no
bit left is that the token is cut off (R180 to R183). -/
def State.afterScanStep (s : State) : State :=
  if TerminatorAt s.lsbBit s.pos s.remaining then s.scanDone
  else s.afterDecChar (decChar s.lsbBit s.pos s.bufLen.toNat)

theorem State.afterDecChar_elim (s : State) (ch : Option Byte) (bad : CharDecoded) (w : Nat) :
    s.afterDecChar (ch.elim bad (.char · w)) = ch.elim (s.afterDecChar bad) (s.emit · w) := by
  cases ch <;> rfl

/-- With no instruction at POS the fetch ends the scan (R182). -/
theorem carry_coreMove_of_no_instr {s : State} (scanning : s.phase = .extScan)
    (h : (decode (.stream (slice s.lsbBit s.pos s.remaining))).instr? = none) :
    carry (coreMove s) = .next (s.scanError .terminatorNotFound) := by
  have hw : (decodeToken s.scanWindow).instr? = none := by
    rw [scanWindow_eq_take, instr?_decodeToken_take]
    exact h
  rw [coreMove, scanning]
  simp only [scanMove, decode]
  cases hd : decodeToken s.scanWindow with
  | instr i rest =>
    rw [hd] at hw
    cases hw
  | exhausted => rfl
  | truncated => rfl

/-- A step of the core in the scan: the token it fetches and executes has the effect of the tests on the stream. -/
theorem carry_coreMove_of_scanning {s : State} (scanning : s.phase = .extScan) :
    carry (coreMove s) = .next s.afterScanStep := by
  rw [State.afterScanStep]
  split
  next hterm =>
    rw [carry_coreMove_of_decode scanning (decode_slice_of_terminator hterm), exec_term_of_room scanning hterm.1]
  next hterm =>
    by_cases cut : s.remaining < widthAt s.lsbBit s.pos
    · rw [carry_coreMove_of_no_instr scanning (instr?_decode_slice_of_cutOff cut), decChar_of_cutOff cut]
      rfl
    · cases marker : s.lsbBit s.pos with
      | false =>
        rw [widthAt_of_false marker] at cut
        have room : 5 ≤ s.remaining := Nat.not_lt.1 cut
        rw [carry_coreMove_of_decode scanning (decode_slice_of_digit marker room hterm), decChar_of_digit marker room,
          State.afterDecChar_elim, exec, execDigit, toNat_ofNat_valueOf (length_slice ..),
          decodeStep_of_whole scanning room]
        rfl
      | true =>
        rw [widthAt_of_true marker] at cut
        have room : 7 ≤ s.remaining := Nat.not_lt.1 cut
        rw [carry_coreMove_of_decode scanning (decode_slice_of_letter marker room hterm),
          decChar_of_letter marker room, State.afterDecChar_elim]
        cases s.lsbBit (s.pos + 1) <;>
          simp only [exec, execUpper, execLower, toNat_ofNat_valueOf (length_slice ..), Bool.false_eq_true, if_true,
            if_false, decodeStep_of_whole scanning room, State.afterDecChar]

/-- Settles O18: with no bit left DEC_CHAR answers that the token is cut off, so the tests of the statement are those of
the scan step. -/
theorem scanStepFollowsTheOrderOfTests : Obligations.ScanStepFollowsTheOrderOfTests := by
  intro u s turn scanning
  rw [step_of_coreTurn turn, carry_coreMove_of_scanning scanning, State.afterScanStep]
  refine congrArg _ (if_congr Iff.rfl rfl ?_)
  split
  next exhausted =>
    have width := widthAt_bounds s.lsbBit s.pos
    rw [State.remaining] at exhausted
    rw [decChar_of_cutOff (by omega)]
    rfl
  next => cases decChar s.lsbBit s.pos s.bufLen.toNat <;> rfl

/-- One scan step ends the command, or decodes a character from at least 5 of the bits that remain (R181 to R184). -/
theorem State.afterScanStep_cases (s : State) :
    s.afterScanStep = s.scanDone ∨ (∃ e, s.afterScanStep = s.scanError e) ∨
      ∃ c w, (5 ≤ w ∧ w ≤ s.remaining) ∧ s.afterScanStep = s.emit c w := by
  rw [State.afterScanStep]
  split
  · exact .inl rfl
  · cases h : decChar s.lsbBit s.pos s.bufLen.toNat with
    | char c w => exact .inr (.inr ⟨c, w, width_bounds_of_decChar h, rfl⟩)
    | truncated => exact .inr (.inl ⟨_, rfl⟩)
    | invalidDigit => exact .inr (.inl ⟨_, rfl⟩)
    | corrupt => exact .inr (.inl ⟨_, rfl⟩)

/-- More steps than characters fit in the bits that remain end the scan, if the host is idle. -/
theorem run_of_scanning {s : State} {n : Nat} (scanning : s.phase = .extScan) (hidle : s.hostProgram = [])
    (enough : s.remaining < 5 * n) :
    ∃ t, Host.Core.run core n s = .next t ∧ t.phase = .idle ∧ (t.state = .done ∨ t.state = .error) := by
  induction n generalizing s with
  | zero => omega
  | succ n ih =>
    have hstep : step s = .next s.afterScanStep := by
      rw [step_of_no_program hidle, carry_coreMove_of_scanning scanning]
    rw [run_succ_of_next hstep]
    obtain h | ⟨e, h⟩ | ⟨c, w, width, h⟩ := s.afterScanStep_cases <;> rw [h]
    · exact ⟨_, run_of_idle (s := s.scanDone) rfl hidle n, rfl, .inl rfl⟩
    · exact ⟨_, run_of_idle (s := s.scanError e) rfl hidle n, rfl, .inr rfl⟩
    · refine ih (s := s.emit c w) scanning hidle ?_
      rw [State.remaining] at enough width ⊢
      rw [State.emit_pos, State.emit_bufLen]
      omega

/-- Settles O30: a step that does not end the scan takes at least 5 of the bits that remain. -/
theorem extractEndsWithinItsStepBound : Obligations.ExtractEndsWithinItsStepBound :=
  fun _ scanning hidle => run_of_scanning scanning hidle (by omega)

/-! ## The whole scan -/

/-- The scan takes a decoded character as one decode step (R181). -/
theorem scanFrom_of_char {b : Nat → Bool} {p l : Nat} {c : Byte} {w : Nat} (hterm : ¬ TerminatorAt b p (l - p))
    (inside : p ≠ l) (h : decChar b p l = .char c w) (fuel : Nat) (chars : List Byte) :
    scanFrom b l (fuel + 1) p chars = scanFrom b l fuel (p + w) (chars ++ [c]) := by
  rw [scanFrom, if_neg hterm, if_neg inside, h]

/-- A scan ends at its boundary, at a terminator or in an error, or it goes on behind a decoded character. -/
theorem scanFrom_succ_cases (b : Nat → Bool) (l fuel p : Nat) (chars : List Byte) :
    (TerminatorAt b p (l - p) ∧ scanFrom b l (fuel + 1) p chars = .done chars p) ∨
    (∃ e, scanFrom b l (fuel + 1) p chars = .failed e chars p) ∨
    ∃ c w, decChar b p l = .char c w ∧
      scanFrom b l (fuel + 1) p chars = scanFrom b l fuel (p + w) (chars ++ [c]) := by
  by_cases hterm : TerminatorAt b p (l - p)
  · exact .inl ⟨hterm, scanFrom_of_terminator hterm.1 hterm.2 fuel chars⟩
  · by_cases inside : p = l
    · exact .inr (.inl ⟨_, by rw [scanFrom, if_neg hterm, if_pos inside]⟩)
    · cases h : decChar b p l with
      | char c w => exact .inr (.inr ⟨c, w, rfl, scanFrom_of_char hterm inside h fuel chars⟩)
      | truncated => exact .inr (.inl ⟨_, by rw [scanFrom, if_neg hterm, if_neg inside, h]⟩)
      | invalidDigit => exact .inr (.inl ⟨_, by rw [scanFrom, if_neg hterm, if_neg inside, h]⟩)
      | corrupt => exact .inr (.inl ⟨_, by rw [scanFrom, if_neg hterm, if_neg inside, h]⟩)

/-- A scan's end is within the stream, with no more than a character for every 5 bits before it (R185). -/
def Scanned.Within (l : Nat) : Scanned → Prop
  | .done chars p => 5 * chars.length ≤ p ∧ p + 8 ≤ l
  | .failed _ chars p => 5 * chars.length ≤ p ∧ p ≤ l

theorem within_scanFrom (b : Nat → Bool) {l p : Nat} {chars : List Byte} (fuel : Nat) (hp : p ≤ l)
    (few : 5 * chars.length ≤ p) : (scanFrom b l fuel p chars).Within l := by
  induction fuel generalizing p chars with
  | zero => exact ⟨few, hp⟩
  | succ fuel ih =>
    obtain ⟨⟨room, -⟩, h⟩ | ⟨e, h⟩ | ⟨c, w, hchar, h⟩ := scanFrom_succ_cases b l fuel p chars <;> rw [h]
    · exact ⟨few, by omega⟩
    · exact ⟨few, hp⟩
    · have width := width_bounds_of_decChar hchar
      refine ih (by omega) ?_
      rw [List.length_append, List.length_singleton]
      omega

/-- Settles O19, from boundary 0 with no character. -/
theorem scanEndsWithinTheBuffer : Obligations.ScanEndsWithinTheBuffer :=
  fun b l => within_scanFrom b (l + 1) (Nat.zero_le l) (Nat.zero_le 0)

/-- The stop point of a scan: the end of the terminator, or of the window tested at the failing boundary (R187). -/
def Scanned.stop (l : Nat) : Scanned → Nat
  | .done _ p => p + 8
  | .failed _ _ p => min l (p + 8)

/-- A scan does not stop before the window at the boundary it starts from. -/
theorem window_le_stop_scanFrom (b : Nat → Bool) (l fuel p : Nat) (chars : List Byte) :
    min l (p + 8) ≤ (scanFrom b l fuel p chars).stop l := by
  induction fuel generalizing p chars with
  | zero => exact le_rfl
  | succ fuel ih =>
    obtain ⟨-, h⟩ | ⟨e, h⟩ | ⟨c, w, -, h⟩ := scanFrom_succ_cases b l fuel p chars <;> rw [h]
    · exact Nat.min_le_right ..
    · exact le_rfl
    · exact le_trans (by omega) (ih (p + w) _)

/-- Each test of the scan reads the window at its boundary alone, and no window reaches past the stop point. -/
theorem scanFrom_congr_of_stop {b b' : Nat → Bool} {l fuel p : Nat} {chars : List Byte} (hp : p ≤ l)
    (agree : ∀ i < (scanFrom b l fuel p chars).stop l, b i = b' i) :
    scanFrom b' l fuel p chars = scanFrom b l fuel p chars := by
  induction fuel generalizing p chars with
  | zero => rfl
  | succ fuel ih =>
    have window (i : Nat) (hi : i < min l (p + 8)) : b i = b' i :=
      agree i (hi.trans_le (window_le_stop_scanFrom ..))
    have sameTest : TerminatorAt b' p (l - p) ↔ TerminatorAt b p (l - p) :=
      and_congr_right fun room => by rw [slice_congr fun i _ _ => window i (by omega)]
    have sameChar (inside : p ≠ l) : decChar b' p l = decChar b p l := by
      have width := widthAt_bounds b p
      refine (decCharReadsOnlyItsToken b b' p l (by omega) fun i _ hl hw => window i ?_).symm
      have hw : i < p + widthAt b p := hw
      omega
    simp only [scanFrom, sameTest]
    split
    next => rfl
    next hterm =>
      split
      next => rfl
      next inside =>
        rw [sameChar inside]
        split
        next c w hchar =>
          have width := width_bounds_of_decChar hchar
          refine ih (by omega) fun i hi => agree i ?_
          rwa [scanFrom_of_char hterm inside hchar]
        all_goals rfl

/-- Settles O20, from boundary 0. -/
theorem scanReadsOnlyBeforeItsStop : Obligations.ScanReadsOnlyBeforeItsStop :=
  fun _ _ l agree => scanFrom_congr_of_stop (Nat.zero_le l) agree

end Sys2Proof.Machine
end

section
/-!
The results of the host commands (spec/44_transport_commands.md R200, R203, R204, R206, R207, R210, R213): the visible
state after EMBED and after EXTRACT, and the message that an EXTRACT gives back after an EMBED.
-/

namespace Sys2Proof.Machine

/-! ## EMBED -/

/-- What PACK_WRITE leaves in SAMPLE depends on SAMPLE alone (spec/41_lsb_packer.md R132, R133). -/
theorem packWrite_sample_congr {s t : State} (h : t.sample = s.sample) (bits : Bits) :
    (packWrite bits t).sample = (packWrite bits s).sample := by
  induction bits using List.reverseRecOn with
  | nil => exact h
  | append_singleton bits b ih =>
    rw [packWrite_concat, packWrite_concat]
    exact State.packBit_sample_congr ih _ _

/-- A fitting EMBED leaves in SAMPLE what PACK_WRITE leaves there. -/
theorem embedBigStep_sample_of_fits {s : State} {bits : Bits} (h : serialize s.msgEntry s.msgLen.toNat = .ok bits)
    (fits : bits.length ≤ s.bufLen.toNat) : (embedBigStep s).sample = (packWrite bits s).sample := by
  rw [embedBigStep_of_fits h fits]
  exact packWrite_sample_congr (s.start_sample .embSer) bits

/-- What the host sees after a fitting EMBED (R203). -/
theorem embedBigStep_visible_of_fits {s : State} {bits : Bits} (h : serialize s.msgEntry s.msgLen.toNat = .ok bits)
    (fits : bits.length ≤ s.bufLen.toNat) :
    (embedBigStep s).visible =
      { s.visible with
        state := .done, errCode := .noError, errInfo := 0#32, bitsLen := BitVec.ofNat 32 bits.length
        outLen := 0#32, sample := (packWrite bits s).sample } := by
  rw [← embedBigStep_sample_of_fits h fits, embedBigStep_of_fits h fits, packWrite_eq bits (s.start .embSer)]
  rfl

/-- Settles O27, by what SERIALIZE answers and whether the bitstream fits. -/
theorem embedResults : Obligations.EmbedResults := by
  intro s
  cases h : serialize s.msgEntry s.msgLen.toNat with
  | unsupported k =>
    simp only [embedBigStep_of_unsupported h]
    rfl
  | ok bits =>
    simp only
    split
    next fits =>
      have hsample := embedBigStep_sample_of_fits h fits
      refine ⟨by rw [embedBigStep_visible_of_fits h fits, hsample], fun i => ?_⟩
      rw [State.sampleByte_congr hsample, sampleByte_packWrite]
      cases bits[i]? with
      | none => rfl
      | some b => exact mergeLsb_eq_or_ite _ b
    next tooLong =>
      rw [embedBigStep_of_overflow h (Nat.lt_of_not_le tooLong)]
      rfl

/-! ## EXTRACT -/

/-- Above OUT_LEN the host reads a free value (spec/20_memory.md R52; log 2). -/
theorem State.outByte_of_outLen_le {s : State} {j : Nat} (h : s.outLen.toNat ≤ j) :
    s.outByte j = Config.unspecifiedOut s.epoch j := if_neg (Nat.not_lt.2 h)

/-- EXTRACT advances the counter behind the free values once, however it ends (log 2). -/
@[simp] theorem extractBigStep_epoch (s : State) : (extractBigStep s).epoch = s.epoch + 1 := by
  cases h : scan s.lsbBit s.bufLen.toNat with
  | done chars p =>
    rw [extractBigStep_of_done h, writeOut_eq]
    rfl
  | failed e chars p =>
    rw [extractBigStep_of_failed h, writeOut_eq]
    rfl

/-- OUT_LEN is the number of the characters that the scan decoded: the buffer's length bounds it, so the 32 bits hold it
(spec/43_character_decoder.md R185). -/
theorem outLen_toNat_extractBigStep {s : State} {chars : List Byte} {p : Nat}
    (h : scan s.lsbBit s.bufLen.toNat = .done chars p) : (extractBigStep s).outLen.toNat = chars.length := by
  have within := scanEndsWithinTheBuffer s.lsbBit s.bufLen.toNat
  rw [h] at within
  obtain ⟨few, inside⟩ := within
  have hbuf := s.bufLen.isLt
  rw [extractBigStep_of_done h, State.finishOk_outLen, BitVec.toNat_ofNat, Nat.mod_eq_of_lt (by omega)]

/-- The host reads the decoded characters from OUT, and free values behind them (R206; log 2). -/
theorem outByte_extractBigStep {s : State} {chars : List Byte} {p : Nat}
    (h : scan s.lsbBit s.bufLen.toNat = .done chars p) (j : Nat) :
    (extractBigStep s).outByte j = chars.getD j (Config.unspecifiedOut (s.epoch + 1) j) := by
  have hlen := outLen_toNat_extractBigStep h
  rw [List.getD_eq_getElem?_getD]
  by_cases hj : j < chars.length
  · rw [getElem?_eq_outByte_extractBigStep h (hlen ▸ hj), Option.getD_some]
  · have hj := Nat.not_lt.1 hj
    rw [State.outByte_of_outLen_le (hlen ▸ hj), extractBigStep_epoch, List.getElem?_eq_none hj, Option.getD_none]

/-- Settles O31, by how the scan ends. -/
theorem extractResults : Obligations.ExtractResults := by
  intro s
  cases h : scan s.lsbBit s.bufLen.toNat with
  | done chars p =>
    refine ⟨?_, outByte_extractBigStep h⟩
    rw [extractBigStep_of_done h, writeOut_eq]
    rfl
  | failed e chars p =>
    have hlen : (extractBigStep s).outLen = 0#32 := by rw [extractBigStep_of_failed h, State.raise_outLen]
    refine ⟨?_, fun j => ?_⟩
    · rw [extractBigStep_of_failed h, writeOut_eq]
      rfl
    · rw [State.outByte_of_outLen_le (by simp [hlen]), extractBigStep_epoch]

/-! ## EXTRACT after EMBED -/

/-- EXTRACT after a fitting EMBED scans the message and stops before the terminator (R210). -/
theorem scan_embedBigStep {s : State} {bits : Bits} (h : serialize s.msgEntry s.msgLen.toNat = .ok bits)
    (fits : bits.length ≤ s.bufLen.toNat) :
    scan (embedBigStep s).lsbBit (embedBigStep s).bufLen.toNat
      = .done ((List.range s.msgLen.toNat).map fun k => (s.msgEntry k).setWidth 8) (bits.length - 8) := by
  have hbuf : (embedBigStep s).bufLen = s.bufLen := congrArg Visible.bufLen (embedBigStep_visible_of_fits h fits)
  have hbit : (embedBigStep s).lsbBit = (packWrite bits s).lsbBit :=
    funext fun i => congrArg lsbOf (State.sampleByte_congr (embedBigStep_sample_of_fits h fits) i)
  rw [hbuf, hbit]
  exact scanOfASerializedMessageIsTheMessage _ _ bits _ _ h fits (slice_lsbBit_packWrite bits s)

/-- A message's bitstream holds a terminator (spec/30_encoding.md R78). -/
theorem eight_le_length_of_serialize {msg : Nat → Word} {m : Nat} {bits : Bits} (h : serialize msg m = .ok bits) :
    8 ≤ bits.length := by
  rw [bitstreamLengthIsTheClassCount msg m bits h]
  exact Nat.le_add_left ..

/-- Settles O36: EMBED leaves the bitstream in the low bits of SAMPLE, and the scan of a message's bitstream is the
message (O12). -/
theorem extractAfterEmbedReturnsTheMessage : Obligations.ExtractAfterEmbedReturnsTheMessage := by
  intro s bits h fits
  have hscan := scan_embedBigStep h fits
  have hterm := eight_le_length_of_serialize h
  refine ⟨(embedBigStep_state_eq_done_iff h).2 fits, ?_, ?_, ?_, fun k hk => ?_⟩
  · rw [extractBigStep_of_done hscan, State.finishOk_state]
  · refine BitVec.eq_of_toNat_eq ?_
    rw [outLen_toNat_extractBigStep hscan, List.length_map, List.length_range]
  · rw [extractBigStep_of_done hscan, embedBigStep_of_fits h fits, State.finishOk_bitsLen, State.finishOk_bitsLen,
      Nat.sub_add_cancel hterm]
  · rw [outByte_extractBigStep hscan, List.getD_eq_getElem _ _ (by simpa using hk)]
    simp

/-- A terminator's bit sets bit 0 of a sample byte. -/
theorem mergeLsb_true (v : Byte) : mergeLsb v true = v ||| 1#8 := by
  revert v
  decide

/-- Settles O38: the empty message's bitstream is the terminator, and O36 gives the empty message back. -/
theorem emptyMessageIsTheTerminatorAlone : Obligations.EmptyMessageIsTheTerminatorAlone := by
  intro s hmsg room
  have h : serialize s.msgEntry s.msgLen.toNat = .ok terminator := by rw [hmsg]; rfl
  obtain ⟨hdone, hextract, hlen, hbits, -⟩ := extractAfterEmbedReturnsTheMessage s terminator h room
  have hembedBits : (embedBigStep s).bitsLen = 8#32 := congrArg Visible.bitsLen (embedBigStep_visible_of_fits h room)
  refine ⟨hdone, hembedBits, fun i => ?_, hextract, hlen.trans hmsg, hbits.trans hembedBits⟩
  rw [State.sampleByte_congr (embedBigStep_sample_of_fits h room), sampleByte_packWrite, terminator,
    List.getElem?_replicate]
  split
  · exact mergeLsb_true _
  · rfl

/-! ## The steps of the commands -/

/-- Outside BUSY a command word is taken. -/
theorem whenNotBusy_of_free {s : State} (free : s.state ≠ .busy) (t : State) : whenNotBusy s t = .next t :=
  if_neg free

/-- Settles O32: it is ILLEGAL's meaning outside BUSY. -/
theorem illegalCommandEndsInError : Obligations.IllegalCommandEndsInError :=
  fun _ _ free => whenNotBusy_of_free free _

/-! In each phase of EMBED the core's step is the step of that phase (R201, R202). -/

theorem carry_coreMove_of_embSer {s : State} (ser : s.phase = .embSer) :
    carry (coreMove s) = .next (embSerStep s) := by
  rw [coreMove, ser, carry]

theorem carry_coreMove_of_embChk {s : State} (chk : s.phase = .embChk) :
    carry (coreMove s) = .next (embChkStep s) := by
  rw [coreMove, chk, carry]

theorem carry_coreMove_of_embWr {s : State} (wr : s.phase = .embWr) :
    carry (coreMove s) = .next (embWrStep s) := by
  rw [coreMove, wr, carry]

/-- Settles O25: the two CMD writes are taken outside BUSY, and the serialisation step is the core's. -/
theorem commandStartAndSerialisationSteps : Obligations.CommandStartAndSerialisationSteps := by
  intro s
  refine ⟨fun free => ⟨whenNotBusy_of_free free _, whenNotBusy_of_free free _⟩, fun u turn ser => ?_⟩
  rw [step_of_coreTurn turn, carry_coreMove_of_embSer ser]
  rfl

theorem embChkStep_of_fits {s : State} (fits : s.bits.length ≤ s.bufLen.toNat) :
    embChkStep s = { s with widx := 0, phase := .embWr } := if_pos (decide_eq_true fits)

theorem embChkStep_of_overflow {s : State} (tooLong : s.bufLen.toNat < s.bits.length) :
    embChkStep s = s.raise .capacityExceeded (BitVec.ofNat 32 s.bits.length) := by
  rw [embChkStep, packCheck, if_neg (by simpa using tooLong)]

theorem embWrStep_of_bit {s : State} {b : Bool} (h : s.bits[s.widx]? = some b) :
    embWrStep s = { s.packBit s.widx b with widx := s.widx + 1 } := by rw [embWrStep, h]

theorem embWrStep_of_end {s : State} {bits : Bits} (hbits : s.bits = bits) (h : bits.length ≤ s.widx) :
    embWrStep s = { s with bitsLen := BitVec.ofNat 32 bits.length }.finishOk := by
  subst hbits
  rw [embWrStep, List.getElem?_eq_none h]

/-- Settles O26, by phase, and by whether the bitstream fits and a bit is left. -/
theorem capacityAndWriteSteps : Obligations.CapacityAndWriteSteps := by
  intro u s turn
  rw [step_of_coreTurn turn]
  refine ⟨fun chk => ?_, fun wr => ⟨fun b hb => ?_, fun hend => ?_⟩⟩
  · rw [carry_coreMove_of_embChk chk, embChkStep]
    simp only [packCheck, decide_eq_true_eq]
  · rw [carry_coreMove_of_embWr wr, embWrStep_of_bit hb, ← mergeLsb_eq_or_ite]
    rfl
  · rw [carry_coreMove_of_embWr wr, embWrStep_of_end rfl hend]
    rfl

end Sys2Proof.Machine
end

section
/-!
Runs of the host commands from their CMD write (spec/44_transport_commands.md R201, R202, R205, R208, R214): how many
steps each phase of an EMBED takes, and that the runs of EMBED and EXTRACT end in the visible state of the big step.
-/

namespace Sys2Proof.Machine

/-! ## The CMD write -/

/-- The start of a command whose CMD write was the host's only operation. -/
def State.commanded (s : State) (p : Phase) : State := ({ s with hostProgram := [] }).start p

theorem step_of_embedWrite {s : State} (free : s.state ≠ .busy) (h : s.hostProgram = [opWr .cmd 0x00000001#32]) :
    step s = .next (s.commanded .embSer) :=
  ((stepRunsTheDecodedInstruction s).2 _ [] free h).trans
    (whenNotBusy_of_free (s := { s with hostProgram := [] }) free _)

theorem step_of_extractWrite {s : State} (free : s.state ≠ .busy) (h : s.hostProgram = [opWr .cmd 0x00000002#32]) :
    step s = .next (s.commanded .extScan) :=
  ((stepRunsTheDecodedInstruction s).2 _ [] free h).trans
    (whenNotBusy_of_free (s := { s with hostProgram := [] }) free _)

/-! ## The serialisation phase (R201) -/

theorem embSerStep_of_char {s : State} {p : Bits} (hk : s.k < s.msgLen.toNat)
    (hp : encChar (s.msgEntry s.k) = some p) : embSerStep s = { s with bits := s.bits ++ p, k := s.k + 1 } := by
  rw [embSerStep, if_pos hk, hp]

theorem embSerStep_of_unsupported {s : State} (hk : s.k < s.msgLen.toNat) (hp : encChar (s.msgEntry s.k) = none) :
    embSerStep s = s.raise .unsupportedCharacter (BitVec.ofNat 32 s.k) := by
  rw [embSerStep, if_pos hk, hp]

theorem embSerStep_of_end {s : State} (hk : s.k = s.msgLen.toNat) :
    embSerStep s = { s with bits := s.bits ++ terminator, phase := .embChk } := by
  rw [embSerStep, if_neg (by omega)]

/-- With the host idle, a step in the serialisation phase is `embSerStep`. -/
theorem step_of_embSer {s : State} (ser : s.phase = .embSer) (hidle : s.hostProgram = []) :
    step s = .next (embSerStep s) := by
  rw [step_of_no_program hidle, carry_coreMove_of_embSer ser]

/-- The serialisation of `n` characters takes a step for each and one for the terminator. -/
theorem run_of_serialising {s : State} {n : Nat} {bits : Bits} (ser : s.phase = .embSer) (hidle : s.hostProgram = [])
    (left : s.k + n = s.msgLen.toNat) (h : serializeFrom s.msgEntry n s.k s.bits = .ok bits) :
    Host.Core.run core (n + 1) s = .next { s with bits := bits, k := s.msgLen.toNat, phase := .embChk } := by
  induction n generalizing s with
  | zero =>
    cases h
    rw [run_succ_of_next (step_of_embSer ser hidle), embSerStep_of_end left, ← left]
    rfl
  | succ n ih =>
    have hk : s.k < s.msgLen.toNat := by omega
    rw [serializeFrom] at h
    cases hp : encChar (s.msgEntry s.k) with
    | none => simp [hp] at h
    | some p =>
      simp only [hp] at h
      rw [run_succ_of_next (step_of_embSer ser hidle), embSerStep_of_char hk hp]
      exact ih (s := { s with bits := s.bits ++ p, k := s.k + 1 }) ser hidle (by simp only; omega) h

/-- The serialisation ends at the first unsupported character. -/
theorem run_of_unsupported {s : State} {n j : Nat} (ser : s.phase = .embSer) (hidle : s.hostProgram = [])
    (left : s.k + n = s.msgLen.toNat) (h : serializeFrom s.msgEntry n s.k s.bits = .unsupported j) :
    ∃ m bits, Host.Core.run core m s
      = .next ({ s with bits := bits, k := j }.raise .unsupportedCharacter (BitVec.ofNat 32 j)) := by
  induction n generalizing s with
  | zero => cases h
  | succ n ih =>
    have hk : s.k < s.msgLen.toNat := by omega
    rw [serializeFrom] at h
    cases hp : encChar (s.msgEntry s.k) with
    | none =>
      simp only [hp] at h
      cases h
      refine ⟨1, s.bits, ?_⟩
      rw [run_succ_of_next (step_of_embSer ser hidle), embSerStep_of_unsupported hk hp]
      rfl
    | some p =>
      simp only [hp] at h
      obtain ⟨m, bits, hrun⟩ := ih (s := { s with bits := s.bits ++ p, k := s.k + 1 }) ser hidle
        (by simp only; omega) h
      refine ⟨m + 1, bits, ?_⟩
      rw [run_succ_of_next (step_of_embSer ser hidle), embSerStep_of_char hk hp, hrun]

/-! ## The write phase (R202) -/

@[simp] theorem State.written_state (s : State) (n : Nat) (rest : List HostOp) :
    (s.written n rest).state = s.state := by
  rw [State.written, packWrite_eq]

/-- With the host idle, a step in the write phase is `embWrStep`. -/
theorem step_of_embWr {s : State} (wr : s.phase = .embWr) (hidle : s.hostProgram = []) :
    step s = .next (embWrStep s) := by
  rw [step_of_no_program hidle, carry_coreMove_of_embWr wr]

/-- From the start of the write phase, `n` steps with the host idle pack the first `n` bits. -/
theorem run_of_writing {s : State} {n : Nat} (wr : s.phase = .embWr) (hw : s.widx = 0) (hidle : s.hostProgram = [])
    (hn : n ≤ s.bits.length) : Host.Core.run core n s = .next (s.written n []) := by
  induction n with
  | zero =>
    rw [← hidle, State.written_zero hw]
    rfl
  | succ n ih =>
    have hstep : step (s.written n []) = .next (embWrStep (s.written n [])) :=
      step_of_embWr ((s.written_phase n []).trans wr) rfl
    rw [run_add (ih (by omega)) 1, run_succ_of_next hstep, embWrStep_written hn]
    rfl

/-! ## A run of EMBED whose message is supported -/

/-- The state of an EMBED that has serialised the message to `bits`, the host idle, as it enters a phase. -/
def State.serialised (s : State) (bits : Bits) (p : Phase) : State :=
  { s.commanded .embSer with bits := bits, k := s.msgLen.toNat, phase := p }

/-- A fitting EMBED ends with what the host sees after the big step. -/
theorem visible_of_embed_succeeded {s : State} {bits : Bits} (hser : serialize s.msgEntry s.msgLen.toNat = .ok bits)
    (fits : bits.length ≤ s.bufLen.toNat) :
    ({ (s.serialised bits .embWr).written bits.length [] with
        bitsLen := BitVec.ofNat 32 bits.length }.finishOk).visible = (embedBigStep s).visible := by
  have htake : (s.serialised bits .embWr).bits.take bits.length = bits := List.take_length
  have hsample := packWrite_sample_congr (show (s.serialised bits .embWr).sample = s.sample from rfl) bits
  rw [embedBigStep_visible_of_fits hser fits, State.written, htake, packWrite_eq, hsample]
  rfl

section Embed

variable {s : State} {bits : Bits} (free : s.state ≠ .busy) (hcmd : s.hostProgram = [opWr .cmd 0x00000001#32])
  (hser : serialize s.msgEntry s.msgLen.toNat = .ok bits)
include free hcmd hser

/-- The CMD write and the serialisation take M + 2 steps. -/
theorem run_embed_serialised :
    Host.Core.run core (s.msgLen.toNat + 2) s = .next (s.serialised bits .embChk) := by
  rw [run_succ_of_next (step_of_embedWrite free hcmd)]
  exact run_of_serialising (s := s.commanded .embSer) rfl rfl (Nat.zero_add _) hser

/-- The capacity phase takes one step more. -/
theorem run_embed_checked :
    Host.Core.run core (s.msgLen.toNat + 3) s = .next (embChkStep (s.serialised bits .embChk)) := by
  have hstep : step (s.serialised bits .embChk) = .next (embChkStep (s.serialised bits .embChk)) := by
    rw [step_of_no_program rfl, carry_coreMove_of_embChk rfl]
  rw [run_add (run_embed_serialised free hcmd hser) 1, run_succ_of_next hstep]
  rfl

/-- After `n` steps of the write phase the first `n` bits are packed. -/
theorem run_embed_written (fits : bits.length ≤ s.bufLen.toNat) {n : Nat} (hn : n ≤ bits.length) :
    Host.Core.run core (s.msgLen.toNat + 3 + n) s = .next ((s.serialised bits .embWr).written n []) := by
  rw [run_add (run_embed_checked free hcmd hser) n, embChkStep_of_fits fits]
  exact run_of_writing (s := s.serialised bits .embWr) rfl rfl rfl hn

/-- The step that finds every bit packed ends a fitting EMBED. -/
theorem run_embed_succeeded (fits : bits.length ≤ s.bufLen.toNat) :
    Host.Core.run core (s.msgLen.toNat + bits.length + 4) s
      = .next { (s.serialised bits .embWr).written bits.length [] with
          bitsLen := BitVec.ofNat 32 bits.length }.finishOk := by
  have hstep : step ((s.serialised bits .embWr).written bits.length [])
      = .next (embWrStep ((s.serialised bits .embWr).written bits.length [])) :=
    step_of_embWr ((s.serialised bits .embWr).written_phase _ _) rfl
  have hsteps : s.msgLen.toNat + bits.length + 4 = s.msgLen.toNat + 3 + bits.length + 1 := by omega
  rw [hsteps, run_add (run_embed_written free hcmd hser fits le_rfl) 1, run_succ_of_next hstep,
    embWrStep_of_end (State.written_bits ..) (by exact le_rfl)]
  rfl

end Embed

/-- Settles O29: the last bit is packed in the step before the one that ends the command. -/
theorem embedTakesItsStepCount : Obligations.EmbedTakesItsStepCount := by
  intro s bits free hcmd hser fits
  have hlast := run_embed_written free hcmd hser fits le_rfl
  rw [Nat.add_right_comm] at hlast
  exact ⟨⟨_, hlast, State.written_state ..⟩, ⟨_, run_embed_succeeded free hcmd hser fits, rfl⟩⟩

/-- A run of EMBED ends, in the visible state of the big step (R208). -/
theorem run_embed_reaches_bigStep {s : State} (free : s.state ≠ .busy)
    (hcmd : s.hostProgram = [opWr .cmd 0x00000001#32]) :
    ∃ n t, Host.Core.run core n s = .next t ∧ t.phase = .idle ∧ t.hostProgram = [] ∧
      t.visible = (embedBigStep s).visible := by
  cases hser : serialize s.msgEntry s.msgLen.toNat with
  | unsupported k =>
    obtain ⟨m, bits, hrun⟩ := run_of_unsupported (s := s.commanded .embSer) rfl rfl
      (Nat.zero_add _) hser
    refine ⟨m + 1, _, (run_succ_of_next (step_of_embedWrite free hcmd) m).trans hrun, rfl, rfl, ?_⟩
    rw [embedBigStep_of_unsupported hser]
    rfl
  | ok bits =>
    by_cases fits : bits.length ≤ s.bufLen.toNat
    · exact ⟨_, _, run_embed_succeeded free hcmd hser fits, rfl, rfl, visible_of_embed_succeeded hser fits⟩
    · have tooLong := Nat.lt_of_not_le fits
      have hrun := run_embed_checked free hcmd hser
      rw [embChkStep_of_overflow tooLong] at hrun
      refine ⟨_, _, hrun, rfl, rfl, ?_⟩
      rw [embedBigStep_of_overflow hser tooLong]
      rfl

/-! ## A run of EXTRACT -/

/-- The last character is written last. -/
theorem writeOut_concat (k : Nat) (chars : List Byte) (c : Byte) (s : State) :
    writeOut k (chars ++ [c]) s = (writeOut k chars s).setOut (k + chars.length) c := by
  induction chars generalizing k s with
  | nil => rfl
  | cons d chars ih => rw [List.cons_append, writeOut, ih, writeOut, List.length_cons, Nat.succ_add_eq_add_succ]

/-- What the decode steps leave in OUT depends on OUT alone (spec/43_character_decoder.md R181). -/
theorem writeOut_out_congr {s t : State} (h : t.out = s.out) (k : Nat) (chars : List Byte) :
    (writeOut k chars t).out = (writeOut k chars s).out := by
  induction chars generalizing k s t with
  | nil => exact h
  | cons c chars ih => exact ih (by rw [State.setOut_out, State.setOut_out, h]) (k + 1)

/-- The scan started in `s` once it has decoded `chars` and stands at boundary `p`. -/
def State.scanned (s : State) (chars : List Byte) (p : Nat) : State :=
  { writeOut 0 chars s with k := chars.length, pos := p }

theorem State.scanned_eq (s : State) (chars : List Byte) (p : Nat) :
    s.scanned chars p = { s with out := (writeOut 0 chars s).out, k := chars.length, pos := p } := by
  rw [State.scanned, writeOut_eq]

@[simp] theorem State.scanned_phase (s : State) (chars : List Byte) (p : Nat) :
    (s.scanned chars p).phase = s.phase := by rw [State.scanned_eq]
@[simp] theorem State.scanned_hostProgram (s : State) (chars : List Byte) (p : Nat) :
    (s.scanned chars p).hostProgram = s.hostProgram := by rw [State.scanned_eq]
@[simp] theorem State.scanned_bufLen (s : State) (chars : List Byte) (p : Nat) :
    (s.scanned chars p).bufLen = s.bufLen := by rw [State.scanned_eq]
@[simp] theorem State.scanned_pos (s : State) (chars : List Byte) (p : Nat) : (s.scanned chars p).pos = p := rfl
@[simp] theorem State.scanned_lsbBit (s : State) (chars : List Byte) (p : Nat) :
    (s.scanned chars p).lsbBit = s.lsbBit := by
  rw [State.scanned_eq]
  rfl

theorem State.emit_scanned (s : State) (chars : List Byte) (p : Nat) (c : Byte) (w : Nat) :
    (s.scanned chars p).emit c w = s.scanned (chars ++ [c]) (p + w) := by
  rw [State.scanned, State.scanned, writeOut_concat, Nat.zero_add, List.length_append]
  rfl

/-- The state in which a scan started in `s` ends. -/
def State.afterScan (s : State) : Scanned → State
  | .done chars p => (s.scanned chars p).scanDone
  | .failed e chars p => (s.scanned chars p).scanError e

@[simp] theorem State.afterScan_phase (s : State) (r : Scanned) : (s.afterScan r).phase = .idle := by cases r <;> rfl

@[simp] theorem State.afterScan_hostProgram (s : State) (r : Scanned) :
    (s.afterScan r).hostProgram = s.hostProgram := by
  cases r <;> simp [State.afterScan]

/-- The scan step at a boundary and the loop of EXTRACT agree on the terminator, on the errors and on the character
(R180 to R184). -/
theorem afterScanStep_scanFrom_cases (s : State) (fuel : Nat) (chars : List Byte) :
    (s.afterScanStep = s.scanDone ∧ scanFrom s.lsbBit s.bufLen.toNat (fuel + 1) s.pos chars = .done chars s.pos) ∨
    (∃ e, s.afterScanStep = s.scanError e ∧
      scanFrom s.lsbBit s.bufLen.toNat (fuel + 1) s.pos chars = .failed e chars s.pos) ∨
    ∃ c w, (5 ≤ w ∧ w ≤ s.remaining) ∧ s.afterScanStep = s.emit c w ∧
      scanFrom s.lsbBit s.bufLen.toNat (fuel + 1) s.pos chars
        = scanFrom s.lsbBit s.bufLen.toNat fuel (s.pos + w) (chars ++ [c]) := by
  by_cases hterm : TerminatorAt s.lsbBit s.pos (s.bufLen.toNat - s.pos)
  · exact .inl ⟨if_pos hterm, scanFrom_of_terminator hterm.1 hterm.2 fuel chars⟩
  · have hstep : s.afterScanStep = s.afterDecChar (decChar s.lsbBit s.pos s.bufLen.toNat) := if_neg hterm
    rw [hstep, scanFrom, if_neg hterm]
    by_cases exhausted : s.pos = s.bufLen.toNat
    · have width := widthAt_bounds s.lsbBit s.pos
      rw [decChar_of_cutOff (by omega), if_pos exhausted]
      exact .inr (.inl ⟨_, rfl, rfl⟩)
    · rw [if_neg exhausted]
      cases h : decChar s.lsbBit s.pos s.bufLen.toNat with
      | char c w => exact .inr (.inr ⟨c, w, width_bounds_of_decChar h, rfl, rfl⟩)
      | truncated => exact .inr (.inl ⟨_, rfl, rfl⟩)
      | invalidDigit => exact .inr (.inl ⟨_, rfl, rfl⟩)
      | corrupt => exact .inr (.inl ⟨_, rfl, rfl⟩)

/-- With the host idle, the steps of the scan from a boundary end in the state of what the loop of EXTRACT answers
there; each step that goes on leaves fewer bits, so the loop's bound does not cut it off. -/
theorem run_of_scanFrom {s : State} {fuel p : Nat} {chars : List Byte} (scanning : s.phase = .extScan)
    (hidle : s.hostProgram = []) (enough : s.bufLen.toNat - p < fuel) :
    ∃ n, Host.Core.run core n (s.scanned chars p)
      = .next (s.afterScan (scanFrom s.lsbBit s.bufLen.toNat fuel p chars)) := by
  induction fuel generalizing p chars with
  | zero => omega
  | succ fuel ih =>
    have hstep : step (s.scanned chars p) = .next (s.scanned chars p).afterScanStep := by
      rw [step_of_no_program (by simpa using hidle), carry_coreMove_of_scanning (by simpa using scanning)]
    have hcases := afterScanStep_scanFrom_cases (s.scanned chars p) fuel chars
    simp only [State.scanned_bufLen, State.scanned_lsbBit, State.scanned_pos, State.remaining] at hcases
    obtain ⟨ht, h⟩ | ⟨e, ht, h⟩ | ⟨c, w, width, ht, h⟩ := hcases <;> rw [h]
    · exact ⟨1, by rw [run_succ_of_next hstep, ht]; rfl⟩
    · exact ⟨1, by rw [run_succ_of_next hstep, ht]; rfl⟩
    · obtain ⟨n, hn⟩ := ih (p := p + w) (chars := chars ++ [c]) (by omega)
      exact ⟨n + 1, by rw [run_succ_of_next hstep, ht, State.emit_scanned, hn]⟩

/-- The scan of an EXTRACT ends with what the host sees after the big step. -/
theorem visible_afterScan_commanded (s : State) :
    ((s.commanded .extScan).afterScan (scan s.lsbBit s.bufLen.toNat)).visible = (extractBigStep s).visible := by
  have hout := writeOut_out_congr (show (s.commanded .extScan).out = (s.start .extScan).out from rfl) 0
  cases h : scan s.lsbBit s.bufLen.toNat with
  | done chars p =>
    rw [extractBigStep_of_done h, State.afterScan, State.scanned_eq, hout, writeOut_eq]
    rfl
  | failed e chars p =>
    rw [extractBigStep_of_failed h, State.afterScan, State.scanned_eq, hout, writeOut_eq]
    rfl

/-- A run of EXTRACT ends, in the visible state of the big step (R208). -/
theorem run_extract_reaches_bigStep {s : State} (free : s.state ≠ .busy)
    (hcmd : s.hostProgram = [opWr .cmd 0x00000002#32]) :
    ∃ n t, Host.Core.run core n s = .next t ∧ t.phase = .idle ∧ t.hostProgram = [] ∧
      t.visible = (extractBigStep s).visible := by
  obtain ⟨n, hn⟩ := run_of_scanFrom (s := s.commanded .extScan) (p := 0) (chars := []) rfl rfl
    (Nat.lt_succ_self _)
  exact ⟨n + 1, _, (run_succ_of_next (step_of_extractWrite free hcmd) n).trans hn, State.afterScan_phase ..,
    State.afterScan_hostProgram .., visible_afterScan_commanded s⟩

/-- Settles O28: the runs of the two commands. -/
theorem commandRunsReachTheirBigStep : Obligations.CommandRunsReachTheirBigStep :=
  fun _ free => ⟨run_embed_reaches_bigStep free, run_extract_reaches_bigStep free⟩

end Sys2Proof.Machine
end

section
/-!
Errors (spec/60_exceptions.md): what the error entry shows, and that no step but a CMD write or a reset leaves an error.
-/

namespace Sys2Proof.Machine

/-! ## Which operations keep the error registers -/

/-- STATE, ERR_CODE and ERR_INFO are as they were. -/
abbrev KeepsError (s t : State) : Prop := t.state = s.state ∧ t.errCode = s.errCode ∧ t.errInfo = s.errInfo

/-- A length register that takes a value goes to the state given for it. -/
theorem eq_of_writeLength {v : Word} {cap : Nat} {s t : State} (h : carry (writeLength v cap s) = .next t) : t = s := by
  unfold writeLength at h
  split at h
  · cases h
    rfl
  · cases h

/-- Only the slot CMD reaches them: a write of a length changes that length, and every other slot ignores a write. -/
theorem keepsError_writeSlot {s t : State} {v : Word} {n : Nat} (hcmd : n ≠ 0)
    (h : carry (s.writeSlot v (slotOf n)) = .next t) : KeepsError s t := by
  by_cases hbuf : n = 4
  · subst hbuf
    obtain rfl := eq_of_writeLength h
    exact ⟨rfl, rfl, rfl⟩
  · by_cases hmsg : n = 5
    · subst hmsg
      obtain rfl := eq_of_writeLength h
      exact ⟨rfl, rfl, rfl⟩
    · rw [writeSlot_of_readOnly s v hcmd hbuf hmsg] at h
      cases h
      exact ⟨rfl, rfl, rfl⟩

/-- A read only gives the host a value, and a write stores in a memory or in a slot other than CMD. -/
theorem keepsError_hostAccess {s t : State} {a : Access} (hcmd : ∀ v, a ≠ .write32 .registers 0 v)
    (h : carry (hostAccess s a) = .next t) : KeepsError s t := by
  obtain ⟨f, hf, ht⟩ := exists_form_of_hostAccess h
  have ofRead (hr : ∃ d, hostForm s f = .settled (.next (s.receive d))) : KeepsError s t := by
    obtain ⟨d, hd⟩ := hr
    rw [hd] at ht
    cases ht
    exact ⟨rfl, rfl, rfl⟩
  cases a with
  | read8 w off => exact ofRead (hostForm_of_read (.inr hf) s)
  | read32 w off => exact ofRead (hostForm_of_read (.inl hf) s)
  | write8 w off v =>
    cases w with
    | registers | message | output => cases hf
    | sample =>
      obtain ⟨-, rfl⟩ := (byteForm_eq_form_iff (F := (.writeSample · v))).1 hf
      cases ht
      exact ⟨rfl, rfl, rfl⟩
  | write32 w off v =>
    cases w with
    | sample | output => cases hf
    | message =>
      obtain ⟨-, -, rfl⟩ := (wordForm_eq_form_iff (F := (.writeMsg · v))).1 hf
      cases ht
      exact ⟨rfl, rfl, rfl⟩
    | registers =>
      obtain ⟨haligned, -, rfl⟩ := (wordForm_eq_form_iff (bound := 16) (F := (.writeSlot · v))).1 hf
      refine keepsError_writeSlot (fun hslot => hcmd v ?_) ht
      rw [show off = 0 by omega]

/-- With no command in progress the core keeps its state (R250). -/
theorem carry_coreMove_of_idle {s : State} (hp : s.phase = .idle) : carry (coreMove s) = .next s := by
  rw [coreMove, hp, carry]

/-! ## What ERR_CODE reads as -/

/-- The codes of R231, as ERR_CODE shows them. -/
theorem ErrCode.setWidth_code (e : ErrCode) :
    e.code.setWidth 32 =
      if e = .noError then 0#32 else if e = .unsupportedCharacter then 1#32 else if e = .capacityExceeded then 2#32
        else if e = .invalidDigitValue then 3#32 else if e = .corruptStream then 4#32
        else if e = .terminatorNotFound then 5#32 else 6#32 := by
  cases e <;> decide

/-! ## The obligations -/

/-- Settles O53, by the host's next operation: PHASE is P_IDLE in ERROR, so the core keeps its state, and of the host's
operations only a CMD write and a reset reach the error registers. -/
theorem errorPersistsUntilCommandOrReset : Obligations.ErrorPersistsUntilCommandOrReset := by
  intro s t hcontrol herror hs notCommand notReset
  suffices KeepsError s t from herror ▸ this
  have ofCore {program} (h : carry (coreMove { s with hostProgram := program }) = .next t) : KeepsError s t := by
    have idle : s.phase = .idle := hcontrol.phase_idle (by simp [herror])
    rw [carry_coreMove_of_idle (s := { s with hostProgram := program }) idle] at h
    cases h
    exact ⟨rfl, rfl, rfl⟩
  cases hp : s.hostProgram with
  | nil =>
    rw [step_of_no_program hp] at hs
    exact ofCore hs
  | cons op rest =>
    cases op with
    | wait =>
      rw [step_of_coreTurn (.inr (.inl ⟨rest, hp, rfl⟩))] at hs
      exact ofCore hs
    | poll =>
      rw [(pollEndsWhenTheCommandHasEnded s rest hp).2.1 herror] at hs
      cases hs
      exact ⟨rfl, rfl, rfl⟩
    | reset => exact absurd hp (notReset rest)
    | access a =>
      rw [step_of_access hp] at hs
      exact keepsError_hostAccess (s := { s with hostProgram := rest })
        (fun v ha => notCommand v rest (ha ▸ hp)) hs

/-- Settles O52, register by register. -/
theorem errorEntryShowsTheError : Obligations.ErrorEntryShowsTheError := by
  intro s e info
  have hstatus : (s.raise e info).statusWord = 3#32 := by
    rw [State.statusWord, State.raise_state]
    decide
  exact ⟨hstatus, e.setWidth_code, State.raise_errInfo .., State.raise_bitsLen .., State.raise_outLen ..,
    State.raise_phase .., _, _, _, _, _, _, rfl⟩

end Sys2Proof.Machine
end

section
/-!
Reset (spec/70_reset_and_hazards.md R260): the state a reset step makes, and the invariant at power-up.
-/

namespace Sys2Proof.Machine

/-! ## The parts of the invariant at power-up -/

/-- STATE, PHASE, ERR_CODE and the lengths agree after power-up (R26, R27, R30, R31, R34). -/
theorem State.reset_control : State.reset.Control := by decide

/-- After power-up no scan runs and OUT_LEN is 0, so no character has to be recovered (R31, R36). -/
theorem State.reset_recovered : State.reset.Recovered := by
  have noScan : State.reset.phase ≠ .extScan := by decide
  have noOutput (j : Nat) : ¬ j < State.reset.outLen.toNat := Nat.not_lt_zero j
  exact ⟨fun hp => absurd hp noScan, fun j hj => absurd hj (noOutput j)⟩

/-- After power-up the lengths are 0 and no location is written, so every capacity holds them. -/
theorem State.reset_sizes : State.reset.Sizes :=
  ⟨Nat.zero_le _, Nat.zero_le _, List.forall_mem_nil _, List.forall_mem_nil _, List.forall_mem_nil _⟩

/-! ## The obligations -/

/-- Settles O54: a reset takes effect at once, whatever the core does, and the state it makes is the one given. -/
theorem resetSetsEveryRegister : Obligations.ResetSetsEveryRegister :=
  ⟨fun _ _ h => step_of_reset h, rfl, rfl, rfl, rfl, rfl, rfl, rfl, rfl, rfl, rfl, rfl, rfl⟩

/-- Settles O59, part by part. -/
theorem resetMeetsTheInvariant : Obligations.ResetMeetsTheInvariant :=
  ⟨State.reset_memories_wf, State.reset_control, State.bounds_of_idle rfl, State.reset_recovered, State.reset_sizes⟩

end Sys2Proof.Machine
end
